-- ==== Sys2Proof/Word.lean ====
section
/-! DEFINITION. The word and byte types and the plain word operators of rule R10 (00_scope.md). -/

namespace Sys2Proof

/-- The 32-bit unsigned word (R8, R9). -/
abbrev Word := BitVec 32

/-- A byte of the host's side: a message, a block, a digest (R147, R194). -/
abbrev Byte := BitVec 8

/-- `add32(a, b) = (a + b) mod 2^32` (R10, R108). -/
def add32 (a b : Word) : Word := a + b

/-- `not32(a) = a ^ 0xFFFFFFFF` (R10, R109). -/
def not32 (a : Word) : Word := a ^^^ 0xFFFFFFFF#32

/-- `shr32(a, n)`: the logical right shift, zeros shifted in (R10, R101). -/
def shr32 (a : Word) (n : Nat) : Word := a >>> n

/-- `shl32(a, n) = (a * 2^n) mod 2^32` (R10). -/
def shl32 (a : Word) (n : Nat) : Word := a <<< n

end Sys2Proof
end

