-- ==== Sys2Proof/Config.lean ====
section
/-! DEFINITION. What is fixed for the machine and never changes as it runs: the ROM contents, the
identification word, the platform's OPEN parameters, and the free values, which have no body. -/

namespace Sys2Proof.Config

/-- K[0..15] (R36). -/
def kRows0 : List Word :=
  [0x428a2f98#32, 0x71374491#32, 0xb5c0fbcf#32, 0xe9b5dba5#32,
   0x3956c25b#32, 0x59f111f1#32, 0x923f82a4#32, 0xab1c5ed5#32,
   0xd807aa98#32, 0x12835b01#32, 0x243185be#32, 0x550c7dc3#32,
   0x72be5d74#32, 0x80deb1fe#32, 0x9bdc06a7#32, 0xc19bf174#32]

/-- K[16..31] (R36). -/
def kRows16 : List Word :=
  [0xe49b69c1#32, 0xefbe4786#32, 0x0fc19dc6#32, 0x240ca1cc#32,
   0x2de92c6f#32, 0x4a7484aa#32, 0x5cb0a9dc#32, 0x76f988da#32,
   0x983e5152#32, 0xa831c66d#32, 0xb00327c8#32, 0xbf597fc7#32,
   0xc6e00bf3#32, 0xd5a79147#32, 0x06ca6351#32, 0x14292967#32]

/-- K[32..47] (R36). -/
def kRows32 : List Word :=
  [0x27b70a85#32, 0x2e1b2138#32, 0x4d2c6dfc#32, 0x53380d13#32,
   0x650a7354#32, 0x766a0abb#32, 0x81c2c92e#32, 0x92722c85#32,
   0xa2bfe8a1#32, 0xa81a664b#32, 0xc24b8b70#32, 0xc76c51a3#32,
   0xd192e819#32, 0xd6990624#32, 0xf40e3585#32, 0x106aa070#32]

/-- K[48..63] (R36). -/
def kRows48 : List Word :=
  [0x19a4c116#32, 0x1e376c08#32, 0x2748774c#32, 0x34b0bcb5#32,
   0x391c0cb3#32, 0x4ed8aa4a#32, 0x5b9cca4f#32, 0x682e6ff3#32,
   0x748f82ee#32, 0x78a5636f#32, 0x84c87814#32, 0x8cc70208#32,
   0x90befffa#32, 0xa4506ceb#32, 0xbef9a3f7#32, 0xc67178f2#32]

/-- The round constant ROM K[0..63] (R34, R36). -/
def roundConstants : Vector Word 64 :=
  ⟨(kRows0 ++ kRows16 ++ kRows32 ++ kRows48).toArray, by decide⟩

/-- The initial value ROM IV[0..7] (R35, R37). -/
def initialHash : Vector Word 8 :=
  #v[0x6a09e667#32, 0xbb67ae85#32, 0x3c6ef372#32, 0xa54ff53a#32,
     0x510e527f#32, 0x9b05688c#32, 0x1f83d9ab#32, 0x5be0cd19#32]

/-- The constant the ID register holds, the ASCII bytes "S256" (R3, R33). -/
def idWord : Word := 0x53323536#32

/-- The identification string of the hardware (R3). -/
def identification : String := "SHA256CE-1"

/-- FREE VALUE: the `k`-th `draw()` of instance `unit`, the value a port read gets while BUSY = 1 (R12,
R62). "Chosen under no law" (R12): nothing relates two draws of one instance, or the draws of two
instances. That two states with the same `unit` and the same count get the same draw is the model's
choice (log 5). -/
opaque draw (unit k : Nat) : Word

/-- FREE VALUE: what the 32 bits of the data register at port index `index` are after reset. The spec states
no such bits: the register then holds "no value" (R21, R42), and N4 says to assume none; "the hardware would
return some value, but this spec does not fix which" (R247). That it is one word for every reset of every
instance is the model's choice (log 2). -/
opaque resetValue (index : Nat) : Word

/-- FREE VALUE: which of the registers that hold no value an `UndefinedRead` names, given their port
indices in the order of the command's rule (R21: "Which one is not fixed"). That two faults with the same
candidates name the same one is the model's choice (log 4). -/
opaque faultChoice (candidates : List Nat) : Nat

/-- FREE VALUE: what the host's `BNZ` tests before the host has read anything; R91 speaks only of
"the last value read". That it is one value for every instance is the model's choice (log 9). -/
opaque valueBeforeFirstRead : Word

/-- OPEN PARAMETER behind `BUS_BASE` (R8, R67): its number of 1024-byte blocks. -/
opaque busBlock : Nat

/-- OPEN PARAMETER `BUS_BASE`, "a multiple of 1024" (R67). The spec does not say whether each of several
instances has a placement of its own; that they all have this one is the model's choice (log 13). -/
def busBase : Nat := 1024 * busBlock

/-- OPEN PARAMETER behind `N_ENGINES` (R8, R256): the number of instances beyond the first. -/
opaque moreEngines : Nat

/-- OPEN PARAMETER `N_ENGINES`, "at least 1" (R256). -/
def nEngines : Nat := moreEngines + 1

end Sys2Proof.Config
end

