-- ==== Sys2Proof/Syntax.lean ====
section
/-! DEFINITION. The commands of the engine, one constructor per row of spec/opcode_table.json (R84). -/

namespace Sys2Proof

/-- A command. Its operands are fixed registers; the one immediate is the amount `n` of ROTR and SHR,
the 5-bit field v[12:8] of the command word (R82). -/
inductive Instr where
  | nop
  | init
  | expand
  | loadwork
  | round
  | feedfwd
  | compress
  | block
  | add
  | and
  | xor
  | not
  | rotr (n : BitVec 5)
  | shr (n : BitVec 5)
  | ch
  | maj
  | bsig0
  | bsig1
  | ssig0
  | ssig1
  deriving DecidableEq, Repr

end Sys2Proof
end

