-- ==== Sys2Proof/WellFormed.lean ====
section
/-! DEFINITION. Which commands have an encoding: ROTR takes an amount 1..31 (R84, R100, R114). -/

namespace Sys2Proof

/-- The one check on a command: ROTR by 0 is no command (R86, R114: "The word with n = 0 … is
illegal"); SHR takes every amount 0..31 (R115). -/
def Instr.wellFormed (i : Instr) : Bool :=
  match i with
  | .nop => true
  | .init => true
  | .expand => true
  | .loadwork => true
  | .round => true
  | .feedfwd => true
  | .compress => true
  | .block => true
  | .add => true
  | .and => true
  | .xor => true
  | .not => true
  | .rotr n => n != 0#5
  | .shr _ => true
  | .ch => true
  | .maj => true
  | .bsig0 => true
  | .bsig1 => true
  | .ssig0 => true
  | .ssig1 => true

end Sys2Proof
end

