-- ==== Sys2Proof/Decode.lean ====
section
/-! DEFINITION. Command words (30_encoding.md): the fields of format C, the decoder, the encoder, the
legality check of R86 and the match and mask table of R84. -/

namespace Sys2Proof

/-- The field `op = v[7:0]` (R80, R81). -/
def opField (v : Word) : BitVec 8 := v.extractLsb' 0 8

/-- The field `n = v[12:8]` (R80, R82). -/
def amountField (v : Word) : BitVec 5 := v.extractLsb' 8 5

/-- The field `rsv = v[31:13]` (R80, R83). -/
def rsvField (v : Word) : BitVec 19 := v.extractLsb' 13 19

/-- Why a word is no command (R86). -/
inductive DecodeError where
  /-- A bit of `rsv` is set. -/
  | reservedBitsSet
  /-- The op value has no row in R84. -/
  | reservedOp
  /-- A nonzero `n` on an op that takes no amount. -/
  | amountNotAllowed
  /-- ROTR with `n = 0`. -/
  | rotateByZero
  deriving DecidableEq, Repr

/-- The command `i`, which takes no amount, where the amount field is 0. -/
def withoutAmount (n : BitVec 5) (i : Instr) : Except DecodeError Instr :=
  if n = 0#5 then .ok i else .error .amountNotAllowed

/-- The command a word stands for, or the reason it stands for none: total on every word
(R84, R86, R90). -/
def decode (v : Word) : Except DecodeError Instr :=
  if rsvField v ≠ 0#19 then .error .reservedBitsSet else
  match (opField v).toNat with
  | 0x00 => withoutAmount (amountField v) .nop
  | 0x01 => withoutAmount (amountField v) .init
  | 0x02 => withoutAmount (amountField v) .expand
  | 0x03 => withoutAmount (amountField v) .loadwork
  | 0x04 => withoutAmount (amountField v) .round
  | 0x05 => withoutAmount (amountField v) .feedfwd
  | 0x06 => withoutAmount (amountField v) .compress
  | 0x07 => withoutAmount (amountField v) .block
  | 0x10 => withoutAmount (amountField v) .add
  | 0x11 => withoutAmount (amountField v) .and
  | 0x12 => withoutAmount (amountField v) .xor
  | 0x13 => withoutAmount (amountField v) .not
  | 0x14 => if amountField v = 0#5 then .error .rotateByZero else .ok (.rotr (amountField v))
  | 0x15 => .ok (.shr (amountField v))
  | 0x16 => withoutAmount (amountField v) .ch
  | 0x17 => withoutAmount (amountField v) .maj
  | 0x18 => withoutAmount (amountField v) .bsig0
  | 0x19 => withoutAmount (amountField v) .bsig1
  | 0x1A => withoutAmount (amountField v) .ssig0
  | 0x1B => withoutAmount (amountField v) .ssig1
  | _ => .error .reservedOp

/-- The op code of a command (R84). -/
def Instr.opcode (i : Instr) : BitVec 8 :=
  match i with
  | .nop => 0x00
  | .init => 0x01
  | .expand => 0x02
  | .loadwork => 0x03
  | .round => 0x04
  | .feedfwd => 0x05
  | .compress => 0x06
  | .block => 0x07
  | .add => 0x10
  | .and => 0x11
  | .xor => 0x12
  | .not => 0x13
  | .rotr _ => 0x14
  | .shr _ => 0x15
  | .ch => 0x16
  | .maj => 0x17
  | .bsig0 => 0x18
  | .bsig1 => 0x19
  | .ssig0 => 0x1A
  | .ssig1 => 0x1B

/-- The amount field of a command: 0 unless it is ROTR or SHR (R80). -/
def Instr.amount (i : Instr) : BitVec 5 :=
  match i with
  | .rotr n => n
  | .shr n => n
  | .nop | .init | .expand | .loadwork | .round | .feedfwd | .compress | .block
  | .add | .and | .xor | .not | .ch | .maj | .bsig0 | .bsig1 | .ssig0 | .ssig1 => 0#5

/-- The word of a command: `rsv || n || op`, with rsv = 0 (R80, R83, R84). -/
def encode (i : Instr) : Word := (0#19 ++ i.amount : BitVec 24) ++ i.opcode

/-- `Legal(v)` of R86, written as its pseudocode stands. -/
def legal (v : Word) : Bool :=
  let op := (opField v).toNat
  let n := amountField v
  if rsvField v ≠ 0#19 then false
  else if op ∈ [0x00, 0x01, 0x02, 0x03, 0x04, 0x05, 0x06, 0x07,
                0x10, 0x11, 0x12, 0x13, 0x16, 0x17, 0x18, 0x19, 0x1A, 0x1B] then n == 0#5
  else if op = 0x14 then n != 0#5
  else op == 0x15

/-- A row of the opcode map as a match and mask pair, with ROTR's "further condition n != 0" (R84). -/
structure OpcodeRow where
  mnemonic : String
  pattern : Word
  mask : Word
  nonzeroAmount : Bool
  deriving DecidableEq, Repr

/-- A row whose word is fixed: mask 0xFFFFFFFF (R84). -/
def fixedRow (mnemonic : String) (word : Word) : OpcodeRow :=
  ⟨mnemonic, word, 0xFFFFFFFF#32, false⟩

/-- The opcode map of R84, in the table's order. -/
def opcodeTable : List OpcodeRow :=
  [fixedRow "NOP" 0x00#32, fixedRow "INIT" 0x01#32, fixedRow "EXPAND" 0x02#32,
   fixedRow "LOADWORK" 0x03#32, fixedRow "ROUND" 0x04#32, fixedRow "FEEDFWD" 0x05#32,
   fixedRow "COMPRESS" 0x06#32, fixedRow "BLOCK" 0x07#32]
  ++ [fixedRow "ADD" 0x10#32, fixedRow "AND" 0x11#32, fixedRow "XOR" 0x12#32,
   fixedRow "NOT" 0x13#32,
   ⟨"ROTR", 0x14#32, 0xFFFFE0FF#32, true⟩, ⟨"SHR", 0x15#32, 0xFFFFE0FF#32, false⟩]
  ++ [fixedRow "CH" 0x16#32, fixedRow "MAJ" 0x17#32, fixedRow "BSIG0" 0x18#32,
   fixedRow "BSIG1" 0x19#32, fixedRow "SSIG0" 0x1A#32, fixedRow "SSIG1" 0x1B#32]

/-- `(v & mask) == match`, with the row's further condition (R84). -/
def OpcodeRow.selects (r : OpcodeRow) (v : Word) : Bool :=
  (v &&& r.mask) == r.pattern && (!r.nonzeroAmount || amountField v != 0#5)

/-- The command's mnemonic, upper case exactly as in R84 (R91). -/
def Instr.mnemonic (i : Instr) : String :=
  match i with
  | .nop => "NOP"
  | .init => "INIT"
  | .expand => "EXPAND"
  | .loadwork => "LOADWORK"
  | .round => "ROUND"
  | .feedfwd => "FEEDFWD"
  | .compress => "COMPRESS"
  | .block => "BLOCK"
  | .add => "ADD"
  | .and => "AND"
  | .xor => "XOR"
  | .not => "NOT"
  | .rotr _ => "ROTR"
  | .shr _ => "SHR"
  | .ch => "CH"
  | .maj => "MAJ"
  | .bsig0 => "BSIG0"
  | .bsig1 => "BSIG1"
  | .ssig0 => "SSIG0"
  | .ssig1 => "SSIG1"

/-- The command word of `nbits` table bits `w`, the bits above them 0. A word of more than 32 bits is no
command word (R80). -/
def tableWord (nbits w : Nat) : Word := BitVec.ofNat 32 (w % 2 ^ nbits)

/-- What the decoder reads from an instruction whose bits are `w`, numbered as the opcode table numbers
them: the one 32-bit value of one CMD write (R80). -/
def decodeTableWord (nbits w : Nat) : Option Instr :=
  if w % 2 ^ nbits < 2 ^ 32 then (decode (tableWord nbits w)).toOption else none

end Sys2Proof
end

