-- ==== Sys2Proof/Machine/State.lean ====
section
/-! DEFINITION. Everything the spec gives the machine, as plain data: the engine's registers (R20), the
host that drives it (R7, R91), the fault record (R44), the order of steps (R71); and the machine right
after reset (R42). -/

namespace Sys2Proof.Machine

/-- The name of a data register: W[t], H[i], work[i] (WA..WH), OPX, OPY, OPZ, RES (R21). -/
inductive DataReg where
  | w (t : Fin 64)
  | h (i : Fin 8)
  | work (i : Fin 8)
  | opx
  | opy
  | opz
  | res
  deriving DecidableEq, Repr

/-- A data register: its 32 bits, and whether the host or a command has written it since reset. "Each one
holds either a 32-bit value or no value" (R21): it holds a value where `written`, and no value, the state of a
register "that nothing has written since reset" (Glossary), where not. -/
structure DataWord where
  value : Word
  written : Bool
  deriving DecidableEq, Repr

/-- A register that holds the value `v` (R21). -/
def DataWord.of (v : Word) : DataWord := ⟨v, true⟩

/-- The data register of port index `index` after reset: no value (R42); its bits are free (R247). -/
def DataWord.atReset (index : Nat) : DataWord := ⟨Config.resetValue index, false⟩

/-- The reasons for a model fault; "exactly these" (R13). -/
inductive Fault where
  /-- A port read or a command reads a data register that holds no value (R13, R21, R62, R88, R247; U4, D14).
  Raised by `State.afterReads`, for `hostRead` and for every command but NOP and INIT: recorded always; it
  stops the machine, as R13, R21 and R44 say, unless `State.strict` is off (log 26). Safe: a claim about a run
  takes an empty fault record as a premise (R44). -/
  | undefinedRead (reg : DataReg)
  /-- A step finds a broken invariant (R246): a pending word that is no command, or ROUND with RCNT
  outside 0..63. Raised by `engineStep` and `execRound`. Safe: no well-formed run reaches it. -/
  | invariantViolation
  /-- A bus access outside the port's form (R67), or an access while reset is held (R273). Raised by
  `hostAccess`. Safe: refusal errs toward unprovable (D28). -/
  | refusedAccess
  deriving DecidableEq, Repr

/-- Why an instruction would have no meaning. A refusal of R13, the host procedure's, is a `HostError`. -/
inductive Refusal where
  /-- No meaning written yet. Raised by an arm of `exec` alone; no arm raises it. Safe. -/
  | notModelled (mnemonic : String)
  deriving DecidableEq, Repr

/-- The engine's state, exactly that of R20. -/
structure Engine where
  /-- The schedule memory W[0..63]; "Reset value: no value" (R25). -/
  w : Vector DataWord 64
  /-- The digest state register file H[0..7]; "Reset value: no value" (R22). -/
  h : Vector DataWord 8
  /-- The working registers: work[0] = a = WA, ..., work[7] = h = WH; "Reset value: no value" (R24). -/
  work : Vector DataWord 8
  /-- ALU operand x; "Reset value: no value" (R27). -/
  opx : DataWord
  /-- ALU operand y; "Reset value: no value" (R27). -/
  opy : DataWord
  /-- ALU operand z; "Reset value: no value" (R27). -/
  opz : DataWord
  /-- ALU result; "Reset value: no value" (R28). -/
  res : DataWord
  /-- The implemented bits 4:0 of STATUS; bits 31:5 read 0 (R29). -/
  status : BitVec 5
  /-- The round counter, bits 6:0; bits 31:7 read 0 (R32). -/
  rcnt : BitVec 7
  /-- The hidden pending-command register (R38). -/
  pending : Option Word
  deriving DecidableEq, Repr

/-- One access of the host: a port access (R61), or a bus access where a platform maps the port on a
byte-addressed bus (R67). -/
inductive Access where
  | read (a : BitVec 8)
  | write (a : BitVec 8) (v : Word)
  | busRead (addr size : Nat)
  | busWrite (addr size : Nat) (v : Word)
  deriving DecidableEq, Repr

/-- A line of a host program, its label resolved to a position (R91). -/
inductive HostInstr where
  /-- `WR`, `RD`, or a bus access. -/
  | access (x : Access)
  /-- `BNZ <label>, <bit>`: go to the label if the bit of the last value read is 1. -/
  | bnz (target : Nat) (bit : Fin 32)
  deriving DecidableEq, Repr

/-- The host (R7): its program, its position in it, and the values its reads returned, newest first. -/
structure HostAgent where
  program : List HostInstr
  pos : Nat
  reads : List Word
  deriving DecidableEq, Repr

/-- Who takes the next step in the run's total order (R71): the host, the engine, or the platform,
which resets the engine (R270) or starts or ends holding reset (R273). -/
inductive Turn where
  | host
  | engine
  | reset
  | holdReset
  | releaseReset
  deriving DecidableEq, Repr

/-- The machine: one engine and its host. -/
structure State where
  engine : Engine
  host : HostAgent
  /-- The fault record (R44), oldest first. -/
  faults : List Fault
  /-- The rest of the run's order of steps (R71); the model's own field. -/
  turns : List Turn
  /-- Whether the platform holds reset (R273); the model's own field. -/
  resetHeld : Bool
  /-- How many draws were taken (R12); the model's own field, an argument of `Config.draw` (log 5). -/
  draws : Nat
  /-- Which of the platform's instances this is (R256); the model's own field, an argument of
  `Config.draw`, so that the draws of two instances are unrelated (log 5). No step writes it. -/
  unit : Nat
  /-- Whether a read of a register that holds no value stops the machine, with none of the command's writes
  applied, as R13, R21 and R44 say, and as State.reset has it; where not, the read is recorded all the same and
  the machine goes on with the register's bits, as R247 says of the hardware. The model's own field (log 26); no
  step writes it, so every run from reset is of a strict machine. -/
  strict : Bool
  deriving DecidableEq, Repr

/-- The engine after reset (R42): every data register holds no value; the bits it has are free. -/
def Engine.reset : Engine where
  w := Vector.ofFn fun t : Fin 64 => .atReset t
  h := Vector.ofFn fun i : Fin 8 => .atReset (0x40 + i)
  work := Vector.ofFn fun i : Fin 8 => .atReset (0x48 + i)
  opx := .atReset 0x53
  opy := .atReset 0x54
  opz := .atReset 0x55
  res := .atReset 0x56
  status := 0
  rcnt := 64
  pending := none

/-- The machine right after reset (R42, R270), idle and waiting for accesses (R272): no host program is
placed yet, the fault record is empty (R44), and a faulted state is quiescent (R13, R44). -/
def State.reset : State where
  engine := Engine.reset
  host := { program := [], pos := 0, reads := [] }
  faults := []
  turns := []
  resetHeld := false
  draws := 0
  unit := 0
  strict := true

end Sys2Proof.Machine
end

