-- ==== Sys2Proof/Machine/Flags.lean ====
section
/-! DEFINITION. STATUS, the engine's only condition state (R40): its bits (R29), raising an error (R240)
and the write-1-to-clear rule (R30). The engine has no flags, and no command writes one. -/

namespace Sys2Proof.Machine

/-- The error bits of STATUS (R29). -/
inductive ErrorBit where
  | errIllegal
  | errBusy
  | errAddr
  | errSeq
  deriving DecidableEq, Repr

/-- The bit's place in STATUS, also its code (R29, R241 to R244). -/
def ErrorBit.index (b : ErrorBit) : Nat :=
  match b with
  | .errIllegal => 1
  | .errBusy => 2
  | .errAddr => 3
  | .errSeq => 4

/-- STATUS.BUSY (R29, bit 0). -/
def Engine.busy (e : Engine) : Bool := e.status.getLsbD 0

/-- An error bit of STATUS. -/
def Engine.error (e : Engine) (b : ErrorBit) : Bool := e.status.getLsbD b.index

/-- `raise Error(E)`: "sets STATUS bit E to 1"; "no other register changes" (R240). -/
def Engine.raise (e : Engine) (b : ErrorBit) : Engine :=
  { e with status := e.status ||| (1#5 <<< b.index) }

/-- `STATUS.BUSY <- 1` (R85). -/
def statusBusy (s : BitVec 5) : BitVec 5 := s ||| 1#5

/-- `STATUS.BUSY <- 0` (R88). -/
def statusIdle (s : BitVec 5) : BitVec 5 := s &&& 0x1E#5

/-- `STATUS[4:1] <- STATUS[4:1] & not(v[4:1])`: the error bits in which `v` is 1 are cleared, BUSY stays
(R30). -/
def statusClear (s : BitVec 5) (v : Word) : BitVec 5 := s &&& ~~~(v.extractLsb' 0 5 &&& 0x1E#5)

/-- A host write of `v` to STATUS (R30). -/
def Engine.writeStatus (e : Engine) (v : Word) : Engine := { e with status := statusClear e.status v }

/-- The word a read of STATUS returns: bits 31:5 read 0 (R29). -/
def Engine.statusWord (e : Engine) : Word := e.status.setWidth 32

end Sys2Proof.Machine
end

