-- ==== Sys2Proof/Machine/Operands.lean ====
section
/-! DEFINITION. The operand forms of the commands: the immediate amount (R82), the data registers by
name (R21), and whole register files as words. -/

namespace Sys2Proof.Machine

/-- `amount = zext_32(n)`, in 0..31 (R82). -/
def amountOf (n : BitVec 5) : Nat := n.toNat

/-- A data register by its name (R21). -/
def Engine.get (e : Engine) (r : DataReg) : DataWord :=
  match r with
  | .w t => e.w[t]
  | .h i => e.h[i]
  | .work i => e.work[i]
  | .opx => e.opx
  | .opy => e.opy
  | .opz => e.opz
  | .res => e.res

/-- `r <- v`: a write gives a data register a value (R21, R63). -/
def Engine.set (e : Engine) (r : DataReg) (v : Word) : Engine :=
  match r with
  | .w t => { e with w := e.w.set t (.of v) }
  | .h i => { e with h := e.h.set i (.of v) }
  | .work i => { e with work := e.work.set i (.of v) }
  | .opx => { e with opx := .of v }
  | .opy => { e with opy := .of v }
  | .opz => { e with opz := .of v }
  | .res => { e with res := .of v }

/-- A register file written with the words given. -/
def held {n : Nat} (v : Vector Word n) : Vector DataWord n := v.map .of

/-- The bits of a register file. -/
def valuesOf {n : Nat} (v : Vector DataWord n) : Vector Word n := v.map DataWord.value

/-- The words of the block in a schedule memory: the bits of W[0..15] (R26). -/
def blockPart (w : Vector DataWord 64) : Vector Word 16 := Vector.ofFn fun t : Fin 16 => w[t].value

/-- W after the expansion `u`: W[16..63] written, W[0..15] as they were (R160, R162). -/
def expandedFile (w : Vector DataWord 64) (u : Vector Word 64) : Vector DataWord 64 :=
  Vector.ofFn fun t : Fin 64 => if t.val < 16 then w[t] else .of u[t]

/-- The names of H[0..7]. -/
def hRegs : List DataReg := (List.finRange 8).map .h

/-- The names of WA..WH. -/
def workRegs : List DataReg := (List.finRange 8).map .work

/-- The names of W[0..63]. -/
def wRegs : List DataReg := (List.finRange 64).map .w

/-- The names of W[0..15]. -/
def blockRegs : List DataReg := (List.finRange 16).map fun t => .w (t.castLE (by decide))

/-- The port index of a data register (R41). -/
def DataReg.index (r : DataReg) : BitVec 8 :=
  match r with
  | .w t => BitVec.ofNat 8 t
  | .h i => BitVec.ofNat 8 (0x40 + i)
  | .work i => BitVec.ofNat 8 (0x48 + i)
  | .opx => 0x53
  | .opy => 0x54
  | .opz => 0x55
  | .res => 0x56

end Sys2Proof.Machine
end

