-- ==== Sys2Proof/Machine/Ops.lean ====
section
/-! DEFINITION. The shared operations: a read that finds no value (R21), the completion of a command (R88),
the recording of a fault (R13, R44), issue (R85), and reset (R270). The engine takes no
exception and has no return from one (R251): `Engine.raise` and `State.recordFault` are all that an error
or a fault does. -/

namespace Sys2Proof.Machine

/-- Those of the registers `reads` that hold no value. -/
def Engine.unwritten (e : Engine) (reads : List DataReg) : List DataReg :=
  reads.filter fun r => !(e.get r).written

/-- The `UndefinedRead` of a read that finds no value in `r` and `rs`: it "names one of them. Which one is not
fixed" (R21). -/
def undefinedReadOf (r : DataReg) (rs : List DataReg) : Fault :=
  match rs with
  | [] => .undefinedRead r
  | _ :: _ =>
    .undefinedRead
      ((r :: rs).getD (Config.faultChoice ((r :: rs).map fun q => q.index.toNat) % (rs.length + 1)) r)

/-- A fault is recorded in the fault record, in order, and the state is otherwise as it was (R13, R44). -/
def State.recordFault (s : State) (f : Fault) : State := { s with faults := s.faults ++ [f] }

/-- What a read of the registers `reads` leads to, `t` being the state it leads to on the bits they have: `t`
where they all hold a value. Where one does not, `UndefinedRead` is raised (R21, R62, R88): it stops the step and
nothing of `t` happens, "the model applies none of its writes" (R21). On a machine that is not `strict` it is
recorded and the step goes on to `t`, as hardware "would return some value" (R247; log 26). -/
def State.afterReads (s : State) (reads : List DataReg) (t : State) : Host.Outcome State Fault Refusal :=
  match s.engine.unwritten reads with
  | [] => .next t
  | r :: rs => if s.strict then .fault (undefinedReadOf r rs) else .next (t.recordFault (undefinedReadOf r rs))

/-- `PENDING <- none`, `STATUS.BUSY <- 0` (R88). -/
def Engine.finish (e : Engine) : Engine := { e with status := statusIdle e.status, pending := none }

/-- The completion step of a command that reads the registers `reads` and whose `Execute` leaves the engine
`e`: its writes and the clearing of BUSY "take effect together" (R88). -/
def State.complete (s : State) (reads : List DataReg) (e : Engine) : Host.Outcome State Fault Refusal :=
  s.afterReads reads { s with engine := e.finish }

/-- The four outcomes of an agent's step (R13). -/
inductive AgentOutcome where
  /-- (1) A next state. -/
  | next (t : State)
  /-- (2) A fault. -/
  | fault (f : Fault)
  /-- (3) "Stuck: the agent has no step." -/
  | stuck
  /-- (4) A refusal; no agent's step gives one, the host procedure refuses its input (`HostError`). -/
  | refused (r : Refusal)
  deriving DecidableEq, Repr

/-- The outcome of an agent that has a step. -/
def AgentOutcome.ofOutcome (o : Host.Outcome State Fault Refusal) : AgentOutcome :=
  match o with
  | .next t => .next t
  | .fault f => .fault f
  | .refused r => .refused r

/-- Whether a recorded fault stops the machine, so that "no agent steps from it" (R13): every one but an
`UndefinedRead` of a machine that is not `strict` (log 26). -/
def Fault.stops (strict : Bool) (f : Fault) : Bool :=
  match f with
  | .undefinedRead _ => strict
  | .invariantViolation => true
  | .refusedAccess => true

/-- The fault that has stopped the machine: the first recorded one that stops it (R13, R44). -/
def State.stopFault (s : State) : Option Fault := s.faults.find? fun f => f.stops s.strict

/-- What the machine does on an agent's turn in the state `s`: its next state; the faulted state, in which
the fault stands recorded (R13, R88; log 3); or, the agent stuck, the turn passes (log 7). -/
def State.settle (s : State) (o : AgentOutcome) : Host.Outcome State Fault Refusal :=
  match o with
  | .next t => .next t
  | .fault f => .next (s.recordFault f)
  | .stuck => .next s
  | .refused r => .refused r

/-- The first outcome, and from its next state the second. -/
def andThen (o : Host.Outcome State Fault Refusal) (k : State → Host.Outcome State Fault Refusal) :
    Host.Outcome State Fault Refusal :=
  match o with
  | .next t => k t
  | .fault f => .fault f
  | .refused r => .refused r

/-- `IssueCommand(v)`: legality (R86), then the sequencing check of ROUND (R87), then acceptance (R85). -/
def Engine.issue (e : Engine) (v : Word) : Engine :=
  if !legal v then e.raise .errIllegal
  else if opField v = 0x04 ∧ e.rcnt = 64 then e.raise .errSeq
  else { e with pending := some v, status := statusBusy e.status }

/-- The platform's reset step: every piece of engine state takes its reset value at once, a pending
command is abandoned (R270, R271). The host keeps its program and what it read; the fault record is not
hardware state (R42, R44). -/
def State.platformReset (s : State) : State := { s with engine := Engine.reset }

/-- Put a command word where the engine's next step takes its command from: PENDING, with BUSY (R38), the
turn the engine's, no fault recorded. -/
def State.placeCommand (s : State) (v : Word) : State :=
  { s with
    engine := { s.engine with pending := some v, status := statusBusy s.engine.status }
    faults := []
    turns := .engine :: s.turns }

end Sys2Proof.Machine
end

