-- ==== Sys2Proof/Machine/WordFns.lean ====
section
/-! DEFINITION. The word functions of the ALU (40_word_alu.md R100 to R107), pure and stateless. -/

namespace Sys2Proof.Machine

/-- `rotr32(x, n) = shr32(x, n) | shl32(x, 32 - n)`, called only with 1 <= n <= 31 (R100). -/
def rotr32 (x : Word) (n : Nat) : Word := shr32 x n ||| shl32 x (32 - n)

/-- `ch(x, y, z) = (x & y) ^ (not32(x) & z)` (R102). -/
def ch (x y z : Word) : Word := (x &&& y) ^^^ (not32 x &&& z)

/-- `maj(x, y, z) = (x & y) ^ (x & z) ^ (y & z)` (R103). -/
def maj (x y z : Word) : Word := (x &&& y) ^^^ (x &&& z) ^^^ (y &&& z)

/-- `bsig0(x) = rotr32(x, 2) ^ rotr32(x, 13) ^ rotr32(x, 22)` (R104). -/
def bsig0 (x : Word) : Word := rotr32 x 2 ^^^ rotr32 x 13 ^^^ rotr32 x 22

/-- `bsig1(x) = rotr32(x, 6) ^ rotr32(x, 11) ^ rotr32(x, 25)` (R105). -/
def bsig1 (x : Word) : Word := rotr32 x 6 ^^^ rotr32 x 11 ^^^ rotr32 x 25

/-- `ssig0(x) = rotr32(x, 7) ^ rotr32(x, 18) ^ shr32(x, 3)` (R106). -/
def ssig0 (x : Word) : Word := rotr32 x 7 ^^^ rotr32 x 18 ^^^ shr32 x 3

/-- `ssig1(x) = rotr32(x, 17) ^ rotr32(x, 19) ^ shr32(x, 10)` (R107). -/
def ssig1 (x : Word) : Word := rotr32 x 17 ^^^ rotr32 x 19 ^^^ shr32 x 10

end Sys2Proof.Machine
end

