-- ==== Sys2Proof/Machine/Alu.lean ====
section
/-! DEFINITION. The ALU commands (40_word_alu.md R110 to R121): each reads OPX, OPY, OPZ as its rule says
and writes RES alone (R122). -/

namespace Sys2Proof.Machine

/-- `RES <- f(OPX)`. -/
def State.alu1 (s : State) (f : Word → Word) : Host.Outcome State Fault Refusal :=
  s.complete [.opx] { s.engine with res := .of (f s.engine.opx.value) }

/-- `RES <- f(OPX, OPY)`. -/
def State.alu2 (s : State) (f : Word → Word → Word) : Host.Outcome State Fault Refusal :=
  s.complete [.opx, .opy] { s.engine with res := .of (f s.engine.opx.value s.engine.opy.value) }

/-- `RES <- f(OPX, OPY, OPZ)`. -/
def State.alu3 (s : State) (f : Word → Word → Word → Word) : Host.Outcome State Fault Refusal :=
  s.complete [.opx, .opy, .opz]
    { s.engine with res := .of (f s.engine.opx.value s.engine.opy.value s.engine.opz.value) }

/-- ADD: `RES <- add32(OPX, OPY)` (R110). -/
def execAdd (s : State) : Host.Outcome State Fault Refusal := s.alu2 add32

/-- AND: `RES <- OPX & OPY` (R111). -/
def execAnd (s : State) : Host.Outcome State Fault Refusal :=
  s.alu2 fun x y => x &&& y

/-- XOR: `RES <- OPX ^ OPY` (R112). -/
def execXor (s : State) : Host.Outcome State Fault Refusal :=
  s.alu2 fun x y => x ^^^ y

/-- NOT: `RES <- not32(OPX)` (R113). -/
def execNot (s : State) : Host.Outcome State Fault Refusal := s.alu1 not32

/-- ROTR n: `RES <- rotr32(OPX, n)`, 1 <= n <= 31 (R114). -/
def execRotr (n : BitVec 5) (s : State) : Host.Outcome State Fault Refusal :=
  s.alu1 fun x => rotr32 x (amountOf n)

/-- SHR n: `RES <- shr32(OPX, n)`, 0 <= n <= 31 (R115). -/
def execShr (n : BitVec 5) (s : State) : Host.Outcome State Fault Refusal :=
  s.alu1 fun x => shr32 x (amountOf n)

/-- CH: `RES <- ch(OPX, OPY, OPZ)` (R116). -/
def execCh (s : State) : Host.Outcome State Fault Refusal := s.alu3 ch

/-- MAJ: `RES <- maj(OPX, OPY, OPZ)` (R117). -/
def execMaj (s : State) : Host.Outcome State Fault Refusal := s.alu3 maj

/-- BSIG0: `RES <- bsig0(OPX)` (R118). -/
def execBsig0 (s : State) : Host.Outcome State Fault Refusal := s.alu1 bsig0

/-- BSIG1: `RES <- bsig1(OPX)` (R119). -/
def execBsig1 (s : State) : Host.Outcome State Fault Refusal := s.alu1 bsig1

/-- SSIG0: `RES <- ssig0(OPX)` (R120). -/
def execSsig0 (s : State) : Host.Outcome State Fault Refusal := s.alu1 ssig0

/-- SSIG1: `RES <- ssig1(OPX)` (R121). -/
def execSsig1 (s : State) : Host.Outcome State Fault Refusal := s.alu1 ssig1

end Sys2Proof.Machine
end

