-- ==== Sys2Proof/Machine/Schedule.lean ====
section
/-! DEFINITION. Message-schedule expansion (42_schedule.md): the pure function Expand of R161 and the
command EXPAND (R160). -/

namespace Sys2Proof.Machine

/-- The word the expansion writes to W[t], for t in 16..63: `add32(add32(add32(ssig1(W[t-2]), W[t-7]),
ssig0(W[t-15])), W[t-16])` (R160). -/
def scheduleWord (w : Vector Word 64) (t : Nat) (_lo : 16 ≤ t) (hi : t < 64) : Word :=
  add32 (add32 (add32 (ssig1 w[t - 2]) w[t - 7]) (ssig0 w[t - 15])) w[t - 16]

/-- The schedule of the block words `m` after `n` steps of the loop `for t in 16 .. 63, in increasing
order` (R160). The words the loop has not reached stand at 0 and are not read. -/
def expandSteps (m : Vector Word 16) : (n : Nat) → n ≤ 48 → Vector Word 64
  | 0, _ => m ++ Vector.replicate 48 0#32
  | n + 1, le =>
    let w := expandSteps m n (Nat.le_of_succ_le le)
    w.set (n + 16) (scheduleWord w (n + 16) (by omega) (by omega))

/-- `Expand(M)`, the completed schedule of the 16 block words (R161). -/
def expand (m : Vector Word 16) : Vector Word 64 := expandSteps m 48 (Nat.le_refl 48)

/-- EXPAND: reads W[0..15], writes W[16..63], whose old contents are never read (R160). -/
def execExpand (s : State) : Host.Outcome State Fault Refusal :=
  s.complete blockRegs
    { s.engine with w := expandedFile s.engine.w (expand (blockPart s.engine.w)) }

end Sys2Proof.Machine
end

