-- ==== Sys2Proof/Machine/Compress.lean ====
section
/-! DEFINITION. Compression rounds and feed-forward (43_compress.md): LOADWORK, ROUND, FEEDFWD, COMPRESS,
BLOCK, and the pure functions Compress and Block of R175. -/

namespace Sys2Proof.Machine

/-- `RoundStep(t)` of R171 with K[t] = `k` and W[t] = `wt`, on the working registers
`v` = (a, b, c, d, e, f, g, h). -/
def roundStep (k wt : Word) (v : Vector Word 8) : Vector Word 8 :=
  let t1 := add32 (add32 (add32 (add32 v[7] (bsig1 v[4])) (ch v[4] v[5] v[6])) k) wt
  let t2 := add32 (bsig0 v[0]) (maj v[0] v[1] v[2])
  #v[add32 t1 t2, v[0], v[1], v[2], add32 v[3] t1, v[4], v[5], v[6]]

/-- The working registers after rounds 0 .. n-1 in increasing order, from the state `s` (R173). -/
def rounds (w : Vector Word 64) (s : Vector Word 8) : (n : Nat) → n ≤ 64 → Vector Word 8
  | 0, _ => s
  | n + 1, le => roundStep Config.roundConstants[n] w[n] (rounds w s n (Nat.le_of_succ_le le))

/-- All 64 rounds: what work holds after COMPRESS (R24, R173). -/
def rounds64 (w : Vector Word 64) (s : Vector Word 8) : Vector Word 8 := rounds w s 64 (Nat.le_refl 64)

/-- `for i in 0 .. 7: H[i] <- add32(H[i], work[i])` (R172). -/
def feedForward (s v : Vector Word 8) : Vector Word 8 := Vector.ofFn fun i : Fin 8 => add32 s[i] v[i]

/-- `Compress(Wfull, S)`: the H that COMPRESS leaves, given W = Wfull and H = S (R175). -/
def compressFn (w : Vector Word 64) (s : Vector Word 8) : Vector Word 8 := feedForward s (rounds64 w s)

/-- `Block(M, S) = Compress(Expand(M), S)` (R175). -/
def blockFn (m : Vector Word 16) (s : Vector Word 8) : Vector Word 8 := compressFn (expand m) s

/-- What COMPRESS's pseudocode leaves, run on the schedule `w` and the state `s` (R173). -/
def Engine.compressed (e : Engine) (w : Vector Word 64) (s : Vector Word 8) : Engine :=
  { e with work := held (rounds64 w s), h := held (compressFn w s), rcnt := 64 }

/-- LOADWORK: `(a, ..., h) <- (H[0], ..., H[7])`, `RCNT <- 0` (R170). -/
def execLoadwork (s : State) : Host.Outcome State Fault Refusal :=
  s.complete hRegs { s.engine with work := held (valuesOf s.engine.h), rcnt := 0 }

/-- ROUND: `t = RCNT`, `RoundStep(t)`, `RCNT <- t + 1`, for 0 <= t <= 63 (R171). A ROUND that completes
with RCNT outside 0..63 is a broken invariant (R87, R246). -/
def execRound (s : State) : Host.Outcome State Fault Refusal :=
  if lt : s.engine.rcnt.toNat < 64 then
    s.complete (workRegs ++ [.w ⟨s.engine.rcnt.toNat, lt⟩])
      { s.engine with
        work := held (roundStep Config.roundConstants[s.engine.rcnt.toNat]
          s.engine.w[s.engine.rcnt.toNat].value (valuesOf s.engine.work))
        rcnt := s.engine.rcnt + 1 }
  else .fault .invariantViolation

/-- FEEDFWD: `for i in 0 .. 7: H[i] <- add32(H[i], work[i])`, at any RCNT (R172). -/
def execFeedfwd (s : State) : Host.Outcome State Fault Refusal :=
  s.complete (hRegs ++ workRegs)
    { s.engine with h := held (feedForward (valuesOf s.engine.h) (valuesOf s.engine.work)) }

/-- COMPRESS: 64 rounds on W[0..63] as they stand and H, then the feed-forward, `RCNT <- 64` (R173). -/
def execCompress (s : State) : Host.Outcome State Fault Refusal :=
  s.complete (hRegs ++ wRegs) (s.engine.compressed (valuesOf s.engine.w) (valuesOf s.engine.h))

/-- BLOCK: `ExpandW()`, then the pseudocode of COMPRESS, as one command (R174). -/
def execBlock (s : State) : Host.Outcome State Fault Refusal :=
  s.complete (blockRegs ++ hRegs)
    ({ s.engine with w := expandedFile s.engine.w (expand (blockPart s.engine.w)) }.compressed
      (expand (blockPart s.engine.w)) (valuesOf s.engine.h))

end Sys2Proof.Machine
end

