-- ==== Sys2Proof/Machine/Control.lean ====
section
/-! DEFINITION. The control commands NOP and INIT (44_digest_and_control.md R190, R191). -/

namespace Sys2Proof.Machine

/-- NOP: "The completion step only clears PENDING and BUSY" (R191). -/
def execNop (s : State) : Host.Outcome State Fault Refusal := s.complete [] s.engine

/-- INIT: `for i in 0 .. 7: H[i] <- IV[i]`; it reads no data register (R190). -/
def execInit (s : State) : Host.Outcome State Fault Refusal :=
  s.complete [] { s.engine with h := held Config.initialHash }

end Sys2Proof.Machine
end

