-- ==== Sys2Proof/Machine/Port.lean ====
section
/-! DEFINITION. The host register port (20_memory.md): the register map (R41), the port read (R62) and the
port write (R63). -/

namespace Sys2Proof.Machine

/-- What an index of the port names (R41). -/
inductive PortReg where
  | data (r : DataReg)
  | cmd
  | status
  | rcnt
  | id
  | k (t : Fin 64)
  | iv (i : Fin 8)
  | reserved
  deriving DecidableEq, Repr

/-- The complete port register map, on the 8-bit index (R41, R64). -/
def portMap (a : BitVec 8) : PortReg :=
  if hw : a.toNat < 0x40 then .data (.w ⟨a.toNat, hw⟩)
  else if hh : a.toNat < 0x48 then .data (.h ⟨a.toNat - 0x40, by omega⟩)
  else if hv : a.toNat < 0x50 then .data (.work ⟨a.toNat - 0x48, by omega⟩)
  else if a.toNat = 0x50 then .cmd
  else if a.toNat = 0x51 then .status
  else if a.toNat = 0x52 then .rcnt
  else if a.toNat = 0x53 then .data .opx
  else if a.toNat = 0x54 then .data .opy
  else if a.toNat = 0x55 then .data .opz
  else if a.toNat = 0x56 then .data .res
  else if a.toNat = 0x57 then .id
  else if a.toNat < 0x80 then .reserved
  else if hk : a.toNat < 0xC0 then .k ⟨a.toNat - 0x80, by omega⟩
  else if hi : a.toNat < 0xC8 then .iv ⟨a.toNat - 0xC0, by omega⟩
  else .reserved

/-- The data registers the host may write while idle: W, H, OPX, OPY, OPZ; WA..WH and RES are read-only
(R41). -/
def DataReg.hostWritable (r : DataReg) : Bool :=
  match r with
  | .w _ => true
  | .h _ => true
  | .work _ => false
  | .opx => true
  | .opy => true
  | .opz => true
  | .res => false

/-- What a port read gives (R62): a value, a draw, or what is in a data register. -/
inductive ReadResult where
  | value (v : Word)
  | draw
  /-- `get(r)`: the value of data register r, or the fault of one that holds no value; `v` are its bits. -/
  | data (r : DataReg) (v : Word)
  deriving DecidableEq, Repr

/-- A read of what an index names, while idle (R62, R64). -/
def Engine.idleRead (e : Engine) (p : PortReg) : ReadResult :=
  match p with
  | .data r => .data r (e.get r).value
  | .cmd => .value 0#32
  | .status => .value e.statusWord
  | .rcnt => .value (e.rcnt.setWidth 32)
  | .id => .value Config.idWord
  | .k t => .value Config.roundConstants[t]
  | .iv i => .value Config.initialHash[i]
  | .reserved => .value 0#32

/-- `PortRead(a)`: STATUS and ID at any time, a draw for every other index while BUSY = 1, else the
register (R62). It changes nothing (R65). -/
def Engine.portRead (e : Engine) (a : BitVec 8) : ReadResult :=
  if portMap a = .status ∨ portMap a = .id then e.idleRead (portMap a)
  else if e.busy then .draw
  else e.idleRead (portMap a)

/-- A write while idle to what an index names, STATUS apart (R63): "read-only or reserved; dropped". -/
def Engine.idleWrite (e : Engine) (p : PortReg) (v : Word) : Engine :=
  match p with
  | .data r => if r.hostWritable then e.set r v else e.raise .errAddr
  | .cmd => e.issue v
  | .status => e.writeStatus v
  | .rcnt => e.raise .errAddr
  | .id => e.raise .errAddr
  | .k _ => e.raise .errAddr
  | .iv _ => e.raise .errAddr
  | .reserved => e.raise .errAddr

/-- `PortWrite(a, v)`: STATUS at any time; while BUSY = 1 every other write is dropped with ERR_BUSY
(R63), in the order of R249. -/
def Engine.portWrite (e : Engine) (a : BitVec 8) (v : Word) : Engine :=
  if portMap a = .status then e.writeStatus v
  else if e.busy then e.raise .errBusy
  else e.idleWrite (portMap a) v

end Sys2Proof.Machine
end

