-- ==== Sys2Proof/Machine/Agents.lean ====
section
/-! DEFINITION. What each agent does on its turn (R7, R71): the host's next access (R60, R91), the engine's
completion step (R88), the platform's reset (R270, R273). -/

namespace Sys2Proof.Machine

/-- The last value the host read (R91); before its first read, a free value. -/
def HostAgent.lastRead (h : HostAgent) : Word := h.reads.headD Config.valueBeforeFirstRead

/-- The host's next access from position `pos`, and the position after it: `BNZ` lines before it are the
host's own branches, no port access (R60, R91). `none` at the end of the program, and where the branches
lead round without an access (`fuel` lines passed). -/
def nextAccess (program : List HostInstr) (last : Word) : (fuel pos : Nat) → Option (Access × Nat)
  | 0, _ => none
  | fuel + 1, pos =>
    match program[pos]? with
    | none => none
    | some (.access x) => some (x, pos + 1)
    | some (.bnz target bit) =>
      nextAccess program last fuel (if last.getLsbD bit then target else pos + 1)

/-- The host's next access and the position after it. A chain of more branches than the program has lines
meets a line twice, with the same last value read, and so never ends. -/
def HostAgent.next (h : HostAgent) : Option (Access × Nat) :=
  nextAccess h.program h.lastRead (h.program.length + 1) h.pos

/-- The host goes on to position `pos`. -/
def State.hostAt (s : State) (pos : Nat) : State := { s with host := { s.host with pos := pos } }

/-- The host receives the value `v` of a read. -/
def State.hostReceives (s : State) (v : Word) : State :=
  { s with host := { s.host with reads := v :: s.host.reads } }

/-- A host read of index `a` (R62): a value; a draw, each a fresh free value of this instance and this count
(log 5); or `get(r)`, which for a register that holds no value raises `UndefinedRead`. -/
def hostRead (a : BitVec 8) (s : State) : Host.Outcome State Fault Refusal :=
  match s.engine.portRead a with
  | .value v => .next (s.hostReceives v)
  | .draw => .next ({ s with draws := s.draws + 1 }.hostReceives (Config.draw s.unit s.draws))
  | .data r v => s.afterReads [r] (s.hostReceives v)

/-- A host write of `v` to index `a` (R63). -/
def hostWrite (a : BitVec 8) (v : Word) (s : State) : Host.Outcome State Fault Refusal :=
  .next { s with engine := s.engine.portWrite a v }

/-- The register index of a bus access, where it has the port's form: 4 bytes at
`BUS_BASE + 4*i`, i in 0..255 (R67). -/
def busIndex (addr size : Nat) : Option (BitVec 8) :=
  if size = 4 ∧ Config.busBase ≤ addr ∧ addr ≤ Config.busBase + 1023 ∧ (addr - Config.busBase) % 4 = 0 then
    some (BitVec.ofNat 8 ((addr - Config.busBase) / 4))
  else none

/-- One access of the host, reset not held. -/
def freeAccess (x : Access) (s : State) : Host.Outcome State Fault Refusal :=
  match x with
  | .read a => hostRead a s
  | .write a v => hostWrite a v s
  | .busRead addr size =>
    match busIndex addr size with
    | some a => hostRead a s
    | none => .fault .refusedAccess
  | .busWrite addr size v =>
    match busIndex addr size with
    | some a => hostWrite a v s
    | none => .fault .refusedAccess

/-- One access of the host; while the platform holds reset it is outside the spec (R273). -/
def hostAccess (x : Access) (s : State) : Host.Outcome State Fault Refusal :=
  if s.resetHeld then .fault .refusedAccess else freeAccess x s

/-- The host's step: "exactly one port access" (R60). A host whose program is at its end has no step: it is
stuck (R13). -/
def hostStep (s : State) : AgentOutcome :=
  match s.host.next with
  | none => .stuck
  | some (x, pos) => .ofOutcome (hostAccess x (s.hostAt pos))

/-- `EngineStep()`, enabled exactly when PENDING != none (R88): the pending command is executed and
completed. A pending word that is no command is a broken invariant (R246). Without a pending command the
engine has no step: it is stuck (R13). -/
def engineStep (s : State) : AgentOutcome :=
  match s.engine.pending with
  | none => .stuck
  | some v =>
    match decode v with
    | .ok i => .ofOutcome (exec i s)
    | .error _ => .fault .invariantViolation

/-- The step of the agent whose turn it is (R71). From a state that a fault has stopped "no agent steps"
(R13, R44). -/
def agentStep (t : Turn) (s : State) : AgentOutcome :=
  match s.stopFault with
  | some _ => .stuck
  | none =>
    match t with
    | .host => hostStep s
    | .engine => engineStep s
    | .reset => .next s.platformReset
    | .holdReset => .next { s.platformReset with resetHeld := true }
    | .releaseReset => .next { s with resetHeld := false }

/-- Whose turn is next: the order's first, and where the order says no more, the engine's if a command is
pending (the fairness of R89), else the host's. -/
def State.nextTurn (s : State) : Turn :=
  match s.turns with
  | t :: _ => t
  | [] => if s.engine.pending.isSome then .engine else .host

/-- The order of steps after this turn. -/
def State.afterTurn (s : State) : State := { s with turns := s.turns.tail }

/-- One step of the machine (R71): the turn of one agent. A state that a fault has stopped is quiescent: it
stays stopped with that fault (R13, R44; log 3). -/
def machineStep (s : State) : Host.Outcome State Fault Refusal :=
  match s.stopFault with
  | some f => .fault f
  | none => s.afterTurn.settle (agentStep s.nextTurn s.afterTurn)

end Sys2Proof.Machine
end

