-- ==== Sys2Proof/Machine/Step.lean ====
section
/-! DEFINITION. The step of the machine, and the placing of a command for the host's probe. -/

namespace Sys2Proof.Machine

/-- One step: the turn of one agent (R71). -/
def step (s : State) : Host.Outcome State Fault Refusal := Sys2Proof.Machine.machineStep s

/-- The state in which the next step completes the command whose bits are `w`: it stands for the host's CMD
write of that word and its acceptance (R85). -/
def State.withFetchWord (s : State) (nbits w : Nat) : State := s.placeCommand (tableWord nbits w)

end Sys2Proof.Machine
end

