-- ==== Sys2Proof/Machine/Program.lean ====
section
/-! DEFINITION. Host programs (30_encoding.md R91, R92): lines with register names and labels, the
pseudo-instructions, and their assembly into the lines the host runs. -/

namespace Sys2Proof.Machine

/-- The port index a name of R41 stands for (R91: `index(reg)`); `reserved` names no one index, and a
reserved index is written as a raw index. -/
def PortReg.index (p : PortReg) : Option (BitVec 8) :=
  match p with
  | .data r => some r.index
  | .cmd => some 0x50
  | .status => some 0x51
  | .rcnt => some 0x52
  | .id => some 0x57
  | .k t => some (BitVec.ofNat 8 (0x80 + t))
  | .iv i => some (BitVec.ofNat 8 (0xC0 + i))
  | .reserved => none

/-- A line of host assembly: R91's four forms, with raw indices, and R92's pseudo-instructions. -/
inductive AsmLine where
  | wr (a : BitVec 8) (v : Word)
  | rd (a : BitVec 8)
  | label (name : String)
  | bnz (name : String) (bit : Fin 32)
  | cmd (i : Instr)
  | wait
  | run (i : Instr)
  | clr
  | ldblk (m : Vector Word 16)
  | rdh
  deriving DecidableEq, Repr

/-- How many program lines an assembly line takes. -/
def AsmLine.size (l : AsmLine) : Nat :=
  match l with
  | .wr _ _ => 1
  | .rd _ => 1
  | .label _ => 0
  | .bnz _ _ => 1
  | .cmd _ => 1
  | .wait => 2
  | .run _ => 3
  | .clr => 1
  | .ldblk _ => 16
  | .rdh => 8

/-- The position of a label, counted from `pos` (R91: "a position in the host program"). R91 does not say
what a name that stands on two lines means; the first such line is the model's choice (log 25). -/
def labelPos (name : String) : (pos : Nat) → List AsmLine → Option Nat
  | _, [] => none
  | pos, l :: ls => if l = .label name then some pos else labelPos name (pos + l.size) ls

/-- `WR` as a program line. -/
def wrLine (a : BitVec 8) (v : Word) : HostInstr := .access (.write a v)

/-- `RD` as a program line. -/
def rdLine (a : BitVec 8) : HostInstr := .access (.read a)

/-- `WAIT` at position `pos`: `L: RD STATUS` then `BNZ L, 0` (R92). -/
def waitLines (pos : Nat) : List HostInstr := [rdLine 0x51, .bnz pos 0]

/-- The expansion of one line at position `pos` of the program `whole` (R91, R92); `none` where a `BNZ`
names no label of it, of which R91 says nothing (the model's choice, log 25). -/
def AsmLine.expandAt (whole : List AsmLine) (pos : Nat) (l : AsmLine) : Option (List HostInstr) :=
  match l with
  | .wr a v => some [wrLine a v]
  | .rd a => some [rdLine a]
  | .label _ => some []
  | .bnz name bit => (labelPos name 0 whole).map fun p => [.bnz p bit]
  | .cmd i => some [wrLine 0x50 (encode i)]
  | .wait => some (waitLines pos)
  | .run i => some (wrLine 0x50 (encode i) :: waitLines (pos + 1))
  | .clr => some [wrLine 0x51 0x0000001E#32]
  | .ldblk m => some ((List.finRange 16).map fun (t : Fin 16) => wrLine (BitVec.ofNat 8 t.val) m[t])
  | .rdh => some ((List.finRange 8).map fun (i : Fin 8) => rdLine (BitVec.ofNat 8 (0x40 + i.val)))

/-- The lines from `pos` on, assembled. -/
def assembleFrom (whole : List AsmLine) : (pos : Nat) → List AsmLine → Option (List HostInstr)
  | _, [] => some []
  | pos, l :: ls => do
    let here ← l.expandAt whole pos
    let rest ← assembleFrom whole (pos + l.size) ls
    some (here ++ rest)

/-- A host program from its assembly lines; `none` where a `BNZ` names no label. -/
def assemble (lines : List AsmLine) : Option (List HostInstr) := assembleFrom lines 0 lines

/-- Give the host a program, to be run from its first line, with nothing read yet. -/
def State.withProgram (s : State) (program : List HostInstr) : State :=
  { s with host := { program := program, pos := 0, reads := [] } }

end Sys2Proof.Machine
end

