-- ==== Sys2Proof/Machine/HostProc.lean ====
section
/-! DEFINITION. The host's software, normative for the host (R5): canonical input, padding and block
loading (41_host_padding.md R140 to R148), the hash procedure, the digest and its rendering, and the save
and restore of H (44_digest_and_control.md R192 to R199). No rule here is a command. -/

namespace Sys2Proof.Machine

/-- What the host is asked to hash: text, bytes, or neither (R140). -/
inductive HostInput where
  | text (s : String)
  | bytes (m : List Byte)
  | other
  deriving DecidableEq, Repr

/-- Why the host refuses an input (R6, R140, R248). -/
inductive HostError where
  /-- `InputTypeError`: neither text nor bytes (R140). -/
  | inputTypeError
  /-- A message of 2^64 bits or more (R6). -/
  | messageTooLong
  deriving DecidableEq, Repr

/-- The canonical bytes of an input: text as UTF-8, bytes as they are (R140). -/
def canonical (input : HostInput) : Except HostError (List Byte) :=
  match input with
  | .text s => .ok (s.toUTF8.data.toList.map fun b => b.toBitVec)
  | .bytes m => .ok m
  | .other => .error .inputTypeError

/-- `BE64(n)`: eight bytes, most significant first (R11, R143). The spec gives it no `n` of 2^64 or more
(R144); there this total function drops the higher bits, a value no run uses (the model's choice,
log 24). -/
def be64 (n : Nat) : List Byte := (List.range 8).map fun j => BitVec.ofNat 8 (n / 2 ^ (8 * (7 - j)))

/-- `BE32(b0, b1, b2, b3)`: four bytes to a word, first byte most significant (R11). -/
def be32 (b0 b1 b2 b3 : Byte) : Word := b0 ++ b1 ++ b2 ++ b3

/-- The loop of R142 and R144, `while ((len(p) * 8 + 64) mod 512) != 0: p <- p || [0x00]`; 64 turns are
always enough. -/
def padZeros : (fuel : Nat) → List Byte → List Byte
  | 0, p => p
  | fuel + 1, p => if (p.length * 8 + 64) % 512 ≠ 0 then padZeros fuel (p ++ [0#8]) else p

/-- `Pad(m)` (R144), "L*8 < 2^64". Beyond that the spec defines no `Pad`, and what this total function gives
there is the model's choice (log 24); `hashProgram` refuses such a message before it is padded (R6). -/
def pad (m : List Byte) : List Byte := padZeros 64 (m ++ [0x80#8]) ++ be64 (m.length * 8)

/-- The number of blocks, `N = len(Pad(m)) / 64` (R144, R192). -/
def blockCount (m : List Byte) : Nat := (pad m).length / 64

/-- Block j: bytes `[64j, 64j + 64)` of `Pad(m)` (R145). -/
def blockBytes (m : List Byte) (j : Nat) : List Byte := ((pad m).drop (64 * j)).take 64

/-- `Words(B)[t] = BE32(B[4t], B[4t+1], B[4t+2], B[4t+3])` (R147). -/
def blockWords (b : List Byte) : Vector Word 16 :=
  Vector.ofFn fun t : Fin 16 =>
    be32 (b.getD (4 * t) 0) (b.getD (4 * t + 1) 0) (b.getD (4 * t + 2) 0) (b.getD (4 * t + 3) 0)

/-- The words of every block of a message, in order (R145, R147). -/
def messageBlocks (m : List Byte) : List (Vector Word 16) :=
  (List.range (blockCount m)).map fun j => blockWords (blockBytes m j)

/-- The H that the blocks leave, chained strictly in order from `s` (R193). -/
def chain (s : Vector Word 8) (blocks : List (Vector Word 16)) : Vector Word 8 :=
  blocks.foldl (fun h m => blockFn m h) s

/-- `BE32bytes(w) = [w[31:24], w[23:16], w[15:8], w[7:0]]` (R194). -/
def be32Bytes (w : Word) : List Byte :=
  [w.extractLsb' 24 8, w.extractLsb' 16 8, w.extractLsb' 8 8, w.extractLsb' 0 8]

/-- `Digest(h0, ..., h7)`: 32 bytes in the order H0..H7 (R194). -/
def digest (h : Vector Word 8) : List Byte := (h.toList.map be32Bytes).flatten

/-- A hex digit of `[0-9a-f]` (R195). -/
def hexDigit (n : BitVec 4) : Char :=
  ['0', '1', '2', '3', '4', '5', '6', '7', '8', '9', 'a', 'b', 'c', 'd', 'e', 'f'].getD n.toNat '0'

/-- `Hex(d)`: two digits per byte, high nibble first, in byte order (R195). -/
def hex (d : List Byte) : List Char :=
  (d.map fun b => [hexDigit (b.extractLsb' 4 4), hexDigit (b.extractLsb' 0 4)]).flatten

/-- What the hash of a message is: the chained state of its blocks from IV, rendered (R192 to R195). For a
message of 2^64 bits or more the spec gives no hash, and this total function's value is the model's choice
(log 24). -/
def hashOf (m : List Byte) : List Char := hex (digest (chain Config.initialHash (messageBlocks m)))

/-- The lines of one block: `LDBLK`, `RUN BLOCK` (R192). -/
def blockLines (m : Vector Word 16) : List AsmLine := [.ldblk m, .run .block]

/-- The accesses of `Hash` for a canonical message: clear stale errors, INIT, each block in order, a
STATUS read, the eight reads of H (R192). -/
def hashLines (m : List Byte) : List AsmLine :=
  [.clr, .run .init] ++ ((messageBlocks m).map blockLines).flatten ++ [.rd 0x51, .rdh]

/-- The host's program of `Hash(input)`, or its refusal of the input, for which it issues no command
(R6, R140, R192). -/
def hashProgram (input : HostInput) : Except HostError (List AsmLine) :=
  match canonical input with
  | .error e => .error e
  | .ok m => if m.length * 8 < 2 ^ 64 then .ok (hashLines m) else .error .messageTooLong

/-- The host has made every access of its program. -/
def State.hostDone (s : State) : Bool := s.host.next.isNone

/-- The result of a run of `Hash` (R192, R198): the eight words read last, rendered, if the STATUS read
before them showed no error bit and nothing pending, no fault is recorded and no command is pending; else
no digest. -/
def State.hashResult (s : State) : Option (List Char) :=
  if s.hostDone ∧ s.faults = [] ∧ s.engine.pending = none then
    match s.host.reads with
    | h7 :: h6 :: h5 :: h4 :: h3 :: h2 :: h1 :: h0 :: status :: _ =>
      if status = 0#32 then some (hex (digest #v[h0, h1, h2, h3, h4, h5, h6, h7])) else none
    | _ => none
  else none

/-- Save H: the eight reads of RDH (R197). -/
def saveLines : List AsmLine := [.rdh]

/-- Restore H, or go over to another message's state: eight writes (R197, R199). -/
def restoreLines (h : Vector Word 8) : List AsmLine :=
  (List.finRange 8).map fun (i : Fin 8) => .wr (BitVec.ofNat 8 (0x40 + i.val)) h[i]

end Sys2Proof.Machine
end

