-- ==== Sys2Proof/Machine/Platform.lean ====
section
/-! DEFINITION. Several instances on one platform (R7, R256): each is a host and engine pair of its own,
and no state is shared between them. -/

namespace Sys2Proof.Machine

/-- The instances at their own resets: `N_ENGINES` of them, numbered (R256). -/
def platformAtReset : List State :=
  (List.range Config.nEngines).map fun k => { State.reset with unit := k }

/-- One step of instance `i`: the other instances stay as they are. An instance that has stopped takes no
step (R13, R256). -/
def stepInstance (i : Nat) (p : List State) : List State :=
  match p[i]? with
  | none => p
  | some s =>
    match step s with
    | .next t => p.set i t
    | .fault _ => p
    | .refused _ => p

end Sys2Proof.Machine
end

