-- ==== Sys2Proof/Safety.lean ====
section
/-! DEFINITION. The terms claims are stated in: the invariant of the engine and of the machine (R32, R38,
R246), a command's completion and the registers it must find a value in, and sequences of commands. -/

namespace Sys2Proof.Machine

/-- A command that may be pending with this RCNT: a legal word, and ROUND only below 64 (R85, R87). -/
def Engine.mayBePending (e : Engine) (v : Word) : Prop :=
  legal v = true ∧ (opField v = 0x04 → e.rcnt.toNat < 64)

/-- What holds of the engine in every state (R32, R38, R246). -/
structure Engine.Inv (e : Engine) : Prop where
  /-- RCNT lies in 0..64 (R32). -/
  rcntInRange : e.rcnt.toNat ≤ 64
  /-- `STATUS.BUSY = 1 iff PENDING != none` (R38). -/
  busyIffPending : e.busy = true ↔ e.pending ≠ none
  /-- Only an accepted command is pending (R85 to R87). -/
  pendingAccepted : ∀ v, e.pending = some v → e.mayBePending v

/-- What holds of the machine in every state: its engine's invariant, and no command is pending while
reset is held (R270, R273). -/
structure State.Inv (s : State) : Prop where
  engine : s.engine.Inv
  heldIsIdle : s.resetHeld = true → s.engine.pending = none

/-- The state a command ends in when its `Execute` leaves the engine `e`: PENDING none, BUSY 0, the error
bits as they were (R88). -/
def State.completedWith (s : State) (e : Engine) : State :=
  { s with engine := { e with status := e.status &&& 0x1E#5, pending := none } }

/-- The data registers that a command's pseudocode reads in the engine `e` (R110 to R121, R160, R170 to R174,
R190, R191). -/
def commandReads (e : Engine) (i : Instr) : List DataReg :=
  match i with
  | .nop => []
  | .init => []
  | .expand => blockRegs
  | .loadwork => hRegs
  | .round => workRegs ++ [.w (Fin.ofNat 64 e.rcnt.toNat)]
  | .feedfwd => hRegs ++ workRegs
  | .compress => hRegs ++ wRegs
  | .block => blockRegs ++ hRegs
  | .add => [.opx, .opy]
  | .and => [.opx, .opy]
  | .xor => [.opx, .opy]
  | .not => [.opx]
  | .rotr _ => [.opx]
  | .shr _ => [.opx]
  | .ch => [.opx, .opy, .opz]
  | .maj => [.opx, .opy, .opz]
  | .bsig0 => [.opx]
  | .bsig1 => [.opx]
  | .ssig0 => [.opx]
  | .ssig1 => [.opx]

/-- `o` raises the fault `f`: it is recorded, and the step went on or did not (R13, R44). -/
def raisesIn (o : Host.Outcome State Fault Refusal) (s : State) (f : Fault) : Prop :=
  o = .fault f ∨ ∃ t, o = .next t ∧ t.faults = s.faults ++ [f]

/-- The command `i`, which reads the registers `reads`, on the state `s`: where they all hold a value it
completes, its `Execute` leaving the engine `e`; where one does not, it raises `UndefinedRead`, which names one
that does not (R21, R88). -/
def completesOn (i : Instr) (s : State) (reads : List DataReg) (e : Engine) : Prop :=
  ((∀ r ∈ reads, (s.engine.get r).written = true) → exec i s = .next (s.completedWith e)) ∧
  ((∃ r ∈ reads, (s.engine.get r).written = false) →
    ∃ r ∈ reads, (s.engine.get r).written = false ∧ raisesIn (exec i s) s (.undefinedRead r))

/-- A command that reads the registers `reads` is not stopped on `s`: they all hold a value, or the machine goes
on where one does not (log 26). -/
def State.goesOn (s : State) (reads : List DataReg) : Prop :=
  s.strict = false ∨ ∀ r ∈ reads, (s.engine.get r).written = true

/-- The register with its bits, written. -/
def DataWord.filled (d : DataWord) : DataWord := .of d.value

/-- The machine in which every data register has the bits it has and holds a value. -/
def State.filled (s : State) : State :=
  { s with engine := { s.engine with
      w := s.engine.w.map .filled, h := s.engine.h.map .filled, work := s.engine.work.map .filled
      opx := s.engine.opx.filled, opy := s.engine.opy.filled, opz := s.engine.opz.filled
      res := s.engine.res.filled } }

/-- The command `i` completed `n` times, one after another. -/
def repeatCommand (i : Instr) : Nat → State → Host.Outcome State Fault Refusal
  | 0, s => .next s
  | n + 1, s => andThen (exec i s) (repeatCommand i n)

/-- `LDBLK m` on the engine: the 16 port writes of R92, in order. -/
def Engine.loadBlock (e : Engine) (m : Vector Word 16) : Engine :=
  (List.finRange 16).foldl (fun e (t : Fin 16) => e.portWrite (BitVec.ofNat 8 t.val) m[t]) e

/-- `LDBLK m`, then BLOCK, for each block in order (R192, R193). -/
def runBlocks : List (Vector Word 16) → State → Host.Outcome State Fault Refusal
  | [], s => .next s
  | m :: ms, s => andThen (exec .block { s with engine := s.engine.loadBlock m }) (runBlocks ms)

/-- The ALU commands (R110 to R121); there is no ROTR by 0 (R86, R114). -/
def aluCommands : List Instr :=
  [.add, .and, .xor, .not, .ch, .maj, .bsig0, .bsig1, .ssig0, .ssig1]
    ++ (List.finRange 31).map (fun n => .rotr (BitVec.ofNat 5 (n.val + 1)))
    ++ (List.finRange 32).map (fun n => .shr (BitVec.ofFin n))

end Sys2Proof.Machine
end

