-- ==== Sys2Proof/Certificates/Slice0/Obligations.lean ====
section
/-! DEFINITION. The statements for the provers, from the spec's numbered rules. -/

open Sys2Proof Sys2Proof.Machine

/-! ### Encoding (30_encoding.md) -/

/-- R84: every row of the opcode map decodes to its command, ROTR at every amount 1..31 and SHR at every
amount 0..31; ROTR's word with n = 0 is refused by name (R86). -/
def Obligations.SpecWordsDecode : Prop :=
  decode 0x00000000#32 = .ok .nop ∧ decode 0x00000001#32 = .ok .init ∧
  decode 0x00000002#32 = .ok .expand ∧ decode 0x00000003#32 = .ok .loadwork ∧
  decode 0x00000004#32 = .ok .round ∧ decode 0x00000005#32 = .ok .feedfwd ∧
  decode 0x00000006#32 = .ok .compress ∧ decode 0x00000007#32 = .ok .block ∧
  decode 0x00000010#32 = .ok .add ∧ decode 0x00000011#32 = .ok .and ∧
  decode 0x00000012#32 = .ok .xor ∧ decode 0x00000013#32 = .ok .not ∧
  (∀ n : BitVec 5, n ≠ 0#5 → decode (BitVec.ofNat 32 (0x14 + n.toNat * 0x100)) = .ok (.rotr n)) ∧
  decode 0x00000014#32 = .error .rotateByZero ∧
  (∀ n : BitVec 5, decode (BitVec.ofNat 32 (0x15 + n.toNat * 0x100)) = .ok (.shr n)) ∧
  decode 0x00000016#32 = .ok .ch ∧ decode 0x00000017#32 = .ok .maj ∧
  decode 0x00000018#32 = .ok .bsig0 ∧ decode 0x00000019#32 = .ok .bsig1 ∧
  decode 0x0000001A#32 = .ok .ssig0 ∧ decode 0x0000001B#32 = .ok .ssig1

/-- R80 to R84: the decoder reads back the word of every well-formed command, and every word it accepts
is the word of the command it reads. -/
def Obligations.DecodeEncodeAgree : Prop :=
  (∀ i : Instr, i.wellFormed = true → decode (encode i) = .ok i) ∧
  (∀ (v : Word) (i : Instr), decode v = .ok i → i.wellFormed = true ∧ encode i = v)

/-- R86: `Legal(v)` is true exactly when a row of R84 selects v, and exactly when the decoder reads a
command; the illegal words are those R86 lists; and an illegal word written to CMD while idle leaves
everything as it was but ERR_ILLEGAL, which it sets. -/
def Obligations.IllegalWordsAndTheirEffect : Prop :=
  ∀ v : Word,
    (legal v = true ↔ ∃ r ∈ opcodeTable, r.selects v = true) ∧
    (legal v = true ↔ ∃ i, decode v = .ok i) ∧
    (legal v = false ↔
      v.extractLsb' 13 19 ≠ 0#19 ∨
      (0x08 ≤ (v.extractLsb' 0 8).toNat ∧ (v.extractLsb' 0 8).toNat ≤ 0x0F) ∨
      0x1C ≤ (v.extractLsb' 0 8).toNat ∨
      (v.extractLsb' 8 5 ≠ 0#5 ∧ v.extractLsb' 0 8 ≠ 0x14#8 ∧ v.extractLsb' 0 8 ≠ 0x15#8) ∨
      (v.extractLsb' 8 5 = 0#5 ∧ v.extractLsb' 0 8 = 0x14#8)) ∧
    (∀ e : Engine, e.busy = false → legal v = false →
      e.portWrite 0x50 v = { e with status := e.status ||| 0x02#5 })

/-- R84: "No two rows match the same word". -/
def Obligations.OpcodeRowsDisjoint : Prop :=
  ∀ (v : Word) (r q : OpcodeRow), r ∈ opcodeTable → q ∈ opcodeTable →
    r.selects v = true → q.selects v = true → r = q

/-- R85, R87: a legal word written to CMD while idle is accepted, PENDING takes it and BUSY is set; but the
ROUND word 0x00000004 at RCNT = 64 is rejected, sets ERR_SEQ and changes nothing else. An illegal word sets
ERR_ILLEGAL, whatever RCNT is. While busy every CMD write is dropped with ERR_BUSY. -/
def Obligations.CommandIssue : Prop :=
  ∀ (e : Engine) (v : Word),
    (e.busy = true → e.portWrite 0x50 v = { e with status := e.status ||| 0x04#5 }) ∧
    (e.busy = false →
    (legal v = true → ¬(v = 0x00000004#32 ∧ e.rcnt = 64#7) →
      e.portWrite 0x50 v = { e with pending := some v, status := e.status ||| 0x01#5 }) ∧
    (v = 0x00000004#32 → e.rcnt = 64#7 →
      legal v = true ∧ e.portWrite 0x50 v = { e with status := e.status ||| 0x10#5 }) ∧
    (legal v = false → e.portWrite 0x50 v = { e with status := e.status ||| 0x02#5 }))

/-! ### The steps of the machine (20_memory.md, 30_encoding.md) -/

/-- R88: on the engine's turn with a pending word that decodes to `i`, no fault having stopped the machine, the
step is `exec i` after the turn is taken off the order: its next state, or the state otherwise unchanged in
which its fault stands recorded. That a fault is answered by a next state that records it is the form the model
chose (log 3). -/
def Obligations.StepRunsDecodedCommand : Prop :=
  ∀ (s : State) (v : Word) (i : Instr), s.stopFault = none → s.nextTurn = .engine →
    s.engine.pending = some v → decode v = .ok i →
    (∀ t, exec i { s with turns := s.turns.tail } = .next t → step s = .next t) ∧
    (∀ f, exec i { s with turns := s.turns.tail } = .fault f →
      step s = .next { s with turns := s.turns.tail, faults := s.faults ++ [f] })

/-- R60, R62, R63, R65, R67: on the host's turn, reset not held, no fault having stopped the machine, the step
makes the host's next access, in the port's form or in the bus form of the same index: a read leaves the engine
as it is and gives the host the register's value, or a draw while busy; a write changes the engine alone. A read
of a register that holds no value, and a bus access outside the port's form, stand recorded. That such a fault
is answered by a next state that records it is the form the model chose (log 3); so are the draw's,
`Config.draw` of the instance and a count that goes up by one (log 5), and that a machine that is not strict goes
on from the undefined read with the register's bits (log 26). R91: which access that is: of an access line, that
access, the host then at the next line; of a BNZ line, the one from its label if the bit of the last value read
is 1, else from the next line; past the last line, none. The last value read is the newest of those its reads
returned. That a branch is no step of its own is the model's reading (log 8), and what it tests before the first
read is a free value (log 9). -/
def Obligations.StepMakesHostAccess : Prop :=
  (∀ h : HostAgent,
    (∀ x, h.program[h.pos]? = some (.access x) → h.next = some (x, h.pos + 1)) ∧
    (∀ target bit, h.program[h.pos]? = some (.bnz target bit) →
      h.next = { h with pos := if h.lastRead.getLsbD bit then target else h.pos + 1 }.next) ∧
    (h.program.length ≤ h.pos → h.next = none) ∧
    (∀ v before, h.reads = v :: before → h.lastRead = v)) ∧
  ∀ (s : State) (pos : Nat), s.stopFault = none → s.nextTurn = .host → s.resetHeld = false →
    (∀ (a : BitVec 8) (x : Access), x = .read a ∨ x = .busRead (Config.busBase + 4 * a.toNat) 4 →
      s.host.next = some (x, pos) →
      (∀ v, (s.engine.portRead a = .value v ∨
          ∃ r, s.engine.portRead a = .data r v ∧ (s.engine.get r).written = true) →
        step s = .next { s with
          turns := s.turns.tail
          host := { s.host with pos := pos, reads := v :: s.host.reads } }) ∧
      (s.engine.portRead a = .draw →
        step s = .next { s with
          turns := s.turns.tail
          draws := s.draws + 1
          host := { s.host with pos := pos, reads := Config.draw s.unit s.draws :: s.host.reads } }) ∧
      (∀ r v, s.engine.portRead a = .data r v → (s.engine.get r).written = false →
        step s = .next (if s.strict then
          { s with turns := s.turns.tail, faults := s.faults ++ [.undefinedRead r] }
        else
          { s with
            turns := s.turns.tail
            faults := s.faults ++ [.undefinedRead r]
            host := { s.host with pos := pos, reads := v :: s.host.reads } }))) ∧
    (∀ (a : BitVec 8) (v : Word) (x : Access),
      x = .write a v ∨ x = .busWrite (Config.busBase + 4 * a.toNat) 4 v →
      s.host.next = some (x, pos) →
      step s = .next { s with
        turns := s.turns.tail
        host := { s.host with pos := pos }
        engine := s.engine.portWrite a v }) ∧
    (∀ (addr size : Nat) (v : Word) (x : Access), x = .busRead addr size ∨ x = .busWrite addr size v →
      ¬(size = 4 ∧ ∃ i : BitVec 8, addr = Config.busBase + 4 * i.toNat) →
      s.host.next = some (x, pos) →
      step s = .next { s with turns := s.turns.tail, faults := s.faults ++ [.refusedAccess] })

/-- R71, R88: in a state that no fault has stopped, the engine's step is enabled exactly when PENDING is not
none: the engine is stuck if and only if it is none. That its turn, given it without a pending command, passes
as a step that changes nothing but the order of turns is the form the model chose (log 7). -/
def Obligations.NoEngineStepWithoutPending : Prop :=
  ∀ s : State, s.stopFault = none →
    (agentStep .engine s = .stuck ↔ s.engine.pending = none) ∧
    (s.turns.head? = some .engine → s.engine.pending = none →
      step s = .next { s with turns := s.turns.tail })

/-- R44, R13: the record starts empty, no step removes an entry, and a faulted state has no further step,
whosever turn it is: of a strict machine, which every run from reset is, one with any fault recorded, which the
step answers with the fault recorded first; of a machine that is not, one with a fault recorded that is no
UndefinedRead. The form of the answer is log 3, and what a machine that is not strict does is log 26, both the
model's choice. -/
def Obligations.FaultRecordGrowsAndStops : Prop :=
  State.reset.faults = [] ∧ State.reset.strict = true ∧
  (∀ s t : State, step s = .next t → t.strict = s.strict ∧ ∃ more, t.faults = s.faults ++ more) ∧
  (∀ (s : State) (f : Fault) (fs : List Fault), s.strict = true → s.faults = f :: fs →
    step s = .fault f ∧ ∀ t, step s ≠ .next t) ∧
  (∀ s : State, .refusedAccess ∈ s.faults ∨ .invariantViolation ∈ s.faults →
    (∃ f ∈ s.faults, step s = .fault f) ∧ ∀ t, step s ≠ .next t) ∧
  (∀ s : State, s.strict = false → (∀ f ∈ s.faults, ∃ r, f = .undefinedRead r) → ∃ t, step s = .next t)

/-- R13, R21: every command on every state completes, or names a register that holds no value, or is ROUND
with RCNT outside 0..63; no command is refused. That such a ROUND, which R87 says never executes, faults
InvariantViolation is the model's reading of R246 (log 15), and that every other command completes on every
state of a machine that is not strict is the model's choice (log 26). -/
def Obligations.CommandOutcomes : Prop :=
  ∀ (i : Instr) (s : State),
    ((∃ t, exec i s = .next t) ∨
     (s.strict = true ∧ ∃ r, (s.engine.get r).written = false ∧ exec i s = .fault (.undefinedRead r)) ∨
     (i = .round ∧ 64 ≤ s.engine.rcnt.toNat ∧ exec i s = .fault .invariantViolation)) ∧
    (s.strict = false → (i = .round → s.engine.rcnt.toNat < 64) → ∃ t, exec i s = .next t)

/-! ### The word functions and the ALU commands (40_word_alu.md) -/

/-- R100, R101: bit i of a rotate by n (1..31) is bit (i + n) mod 32, bit i of a shift by n (0..31) is bit
i + n where that is at most 31, else 0; the rotate is `shr32(x, n) | shl32(x, 32 - n)` and a shift by 0 is
x. -/
def Obligations.RotateAndShiftBits : Prop :=
  ∀ (x : Word) (n : Nat),
    (1 ≤ n → n ≤ 31 →
      rotr32 x n = (x >>> n) ||| (x <<< (32 - n)) ∧
      ∀ i < 32, (rotr32 x n).getLsbD i = x.getLsbD ((i + n) % 32)) ∧
    (n ≤ 31 → ∀ i < 32, (shr32 x n).getLsbD i = (decide (i + n ≤ 31) && x.getLsbD (i + n))) ∧
    shr32 x 0 = x

/-- R110 to R113: ADD, AND, XOR and NOT have their words, write RES with the sum modulo 2^32, the bitwise
AND, XOR and complement of OPX and OPY, change nothing else but the completion, and raise UndefinedRead exactly
where an operand they read holds no value. -/
def Obligations.AddAndXorNot : Prop :=
  (∀ s : State,
    completesOn .add s [.opx, .opy] { s.engine with
      res := .of (BitVec.ofNat 32 (s.engine.opx.value.toNat + s.engine.opy.value.toNat)) } ∧
    completesOn .and s [.opx, .opy] { s.engine with
      res := .of (s.engine.opx.value &&& s.engine.opy.value) } ∧
    completesOn .xor s [.opx, .opy] { s.engine with
      res := .of (s.engine.opx.value ^^^ s.engine.opy.value) } ∧
    completesOn .not s [.opx] { s.engine with res := .of (~~~s.engine.opx.value) }) ∧
  encode .add = 0x00000010#32 ∧ encode .and = 0x00000011#32 ∧
  encode .xor = 0x00000012#32 ∧ encode .not = 0x00000013#32

/-- R114, R115: ROTR n (1..31) and SHR n (0..31) have the words 0x14 + n*0x100 and 0x15 + n*0x100, write
RES with the rotation and the logical shift of OPX, change nothing else but the completion, and raise
UndefinedRead exactly where OPX holds no value; ROTR's word with n = 0 is illegal and raises ERR_ILLEGAL at
issue. -/
def Obligations.RotateAndShiftCommands : Prop :=
  (∀ (s : State) (n : BitVec 5),
    (n ≠ 0#5 → completesOn (.rotr n) s [.opx] { s.engine with
      res := .of (s.engine.opx.value.rotateRight n.toNat) }) ∧
    completesOn (.shr n) s [.opx] { s.engine with res := .of (s.engine.opx.value >>> n.toNat) }) ∧
  (∀ n : BitVec 5,
    encode (.rotr n) = BitVec.ofNat 32 (0x14 + n.toNat * 0x100) ∧
    encode (.shr n) = BitVec.ofNat 32 (0x15 + n.toNat * 0x100)) ∧
  legal 0x00000014#32 = false ∧
  (∀ e : Engine, e.busy = false →
    e.portWrite 0x50 0x00000014#32 = { e with status := e.status ||| 0x02#5 })

/-- R102, R103, R116, R117: CH writes RES with (x & y) ^ (not x & z), bit by bit y where x is 1 and z where
x is 0; MAJ with (x & y) ^ (x & z) ^ (y & z), bit by bit the majority; of x = OPX, y = OPY, z = OPZ; both raise
UndefinedRead exactly where one of them holds no value. The readings bit by bit are the spec's own inferences
from R102 and R103. -/
def Obligations.ChooseAndMajority : Prop :=
  (∀ (s : State) (x y z : Word),
    s.engine.opx.value = x → s.engine.opy.value = y → s.engine.opz.value = z →
    ∃ c m : Word,
      completesOn .ch s [.opx, .opy, .opz] { s.engine with res := .of c } ∧
      completesOn .maj s [.opx, .opy, .opz] { s.engine with res := .of m } ∧
      c = (x &&& y) ^^^ ((x ^^^ 0xFFFFFFFF#32) &&& z) ∧
      m = (x &&& y) ^^^ (x &&& z) ^^^ (y &&& z) ∧
      (∀ i < 32, c.getLsbD i = if x.getLsbD i then y.getLsbD i else z.getLsbD i) ∧
      (∀ i < 32, m.getLsbD i =
        if x.getLsbD i = y.getLsbD i then x.getLsbD i else z.getLsbD i)) ∧
  encode .ch = 0x00000016#32 ∧ encode .maj = 0x00000017#32

/-- R104 to R107, R118 to R121: the sigma commands write RES with the XOR of their rotations and shifts of
OPX, change nothing else but the completion, and raise UndefinedRead exactly where OPX holds no value. -/
def Obligations.SigmaCommands : Prop :=
  (∀ (s : State) (x : Word), s.engine.opx.value = x →
    completesOn .bsig0 s [.opx] { s.engine with
      res := .of (x.rotateRight 2 ^^^ x.rotateRight 13 ^^^ x.rotateRight 22) } ∧
    completesOn .bsig1 s [.opx] { s.engine with
      res := .of (x.rotateRight 6 ^^^ x.rotateRight 11 ^^^ x.rotateRight 25) } ∧
    completesOn .ssig0 s [.opx] { s.engine with
      res := .of (x.rotateRight 7 ^^^ x.rotateRight 18 ^^^ (x >>> 3)) } ∧
    completesOn .ssig1 s [.opx] { s.engine with
      res := .of (x.rotateRight 17 ^^^ x.rotateRight 19 ^^^ (x >>> 10)) }) ∧
  encode .bsig0 = 0x00000018#32 ∧ encode .bsig1 = 0x00000019#32 ∧
  encode .ssig0 = 0x0000001A#32 ∧ encode .ssig1 = 0x0000001B#32

/-- R122: no ALU command (ROTR by 1..31, SHR by 0..31) writes W, H, WA..WH, OPX, OPY, OPZ or RCNT, or anything outside the engine but the
record of an undefined read; and none reads W, H, WA..WH or RCNT: two engines that agree on OPX, OPY and OPZ get
the same RES. -/
def Obligations.AluTouchesOnlyRes : Prop :=
  ∀ i ∈ aluCommands, ∀ s t : State, exec i s = .next t →
    (∀ r, r ≠ .res → t.engine.get r = s.engine.get r) ∧
    t.engine.rcnt = s.engine.rcnt ∧ t.host = s.host ∧ t.turns = s.turns ∧
    t.resetHeld = s.resetHeld ∧ t.draws = s.draws ∧ t.unit = s.unit ∧ t.strict = s.strict ∧
    (t.faults = s.faults ∨
      ∃ r, (s.engine.get r).written = false ∧ t.faults = s.faults ++ [.undefinedRead r]) ∧
    (∀ s' : State, s'.engine.opx = s.engine.opx → s'.engine.opy = s.engine.opy →
      s'.engine.opz = s.engine.opz → s'.strict = s.strict →
      ∃ t', exec i s' = .next t' ∧ t'.engine.res = t.engine.res)

/-! ### The control commands (44_digest_and_control.md) -/

/-- R191: NOP completes on every state and only clears PENDING and BUSY; its word is 0x00000000, which CMD
accepts while idle, BUSY set. -/
def Obligations.NopOnlyCompletes : Prop :=
  encode .nop = 0x00000000#32 ∧
  (∀ e : Engine, e.busy = false → e.portWrite 0x50 0x00000000#32 =
    { e with pending := some 0x00000000#32, status := e.status ||| 0x01#5 }) ∧
  ∀ s : State, exec .nop s = .next { s with engine :=
    { s.engine with pending := none, status := s.engine.status &&& 0x1E#5 } }

/-- R190, R37: INIT completes on every state, writes IV[0..7] to H[0..7], and changes nothing else but the
completion. -/
def Obligations.InitLoadsInitialHash : Prop :=
  encode .init = 0x00000001#32 ∧
  ∀ s : State, exec .init s = .next (s.completedWith { s.engine with
    h := #v[.of 0x6a09e667#32, .of 0xbb67ae85#32, .of 0x3c6ef372#32, .of 0xa54ff53a#32,
            .of 0x510e527f#32, .of 0x9b05688c#32, .of 0x1f83d9ab#32, .of 0x5be0cd19#32] })

/-! ### The schedule (42_schedule.md) -/

/-- R160: EXPAND completes with W[16..63] written with the words 16..63 of a schedule u of 64 words, whose first
16 are W[0..15] and whose word t for t in 16..63 is the modular sum of ssig1(u[t-2]), u[t-7], ssig0(u[t-15]) and
u[t-16]; nothing else changes but the completion. Where one of W[0..15] holds no value it raises
UndefinedRead. -/
def Obligations.ExpandComputesSchedule : Prop :=
  encode .expand = 0x00000002#32 ∧
  ∀ s : State, ∃ u : Vector Word 64,
    (∀ t (_ : t < 16), u[t] = s.engine.w[t].value) ∧
    (∀ t (_ : 16 ≤ t) (_ : t < 64),
      u[t] = ssig1 u[t - 2] + u[t - 7] + ssig0 u[t - 15] + u[t - 16]) ∧
    completesOn .expand s blockRegs { s.engine with
      w := Vector.ofFn fun t : Fin 64 => if t.val < 16 then s.engine.w[t] else .of u[t] }

/-- R162: EXPAND leaves W[0..15], H, WA..WH, RCNT, OPX, OPY, OPZ and RES unchanged, and run twice it leaves the
engine it leaves once. -/
def Obligations.ExpandFrameAndIdempotence : Prop :=
  ∀ s t : State, exec .expand s = .next t →
    (∀ k (_ : k < 16), t.engine.w[k] = s.engine.w[k]) ∧
    t.engine.h = s.engine.h ∧ t.engine.work = s.engine.work ∧ t.engine.rcnt = s.engine.rcnt ∧
    t.engine.opx = s.engine.opx ∧ t.engine.opy = s.engine.opy ∧ t.engine.opz = s.engine.opz ∧
    t.engine.res = s.engine.res ∧
    (∃ t', exec .expand t = .next t' ∧ t'.engine = t.engine) ∧
    ((∀ r ∈ blockRegs, (s.engine.get r).written = true) → exec .expand t = .next t)

/-! ### Compression (43_compress.md) -/

/-- R170: LOADWORK completes with WA..WH written with the words of H[0..7] and RCNT = 0, at any RCNT, and
changes nothing else but the completion; where one of H holds no value it raises UndefinedRead. -/
def Obligations.LoadworkCopiesHash : Prop :=
  encode .loadwork = 0x00000003#32 ∧
  ∀ s : State, completesOn .loadwork s hRegs { s.engine with
    work := Vector.ofFn fun i : Fin 8 => .of s.engine.h[i].value
    rcnt := 0#7 }

/-- R171: where RCNT = t < 64 and a..h are the words of WA..WH, ROUND completes with the eight new working
registers of T1 and T2, RCNT = t + 1, and changes nothing else but the completion; where one of WA..WH or W[t]
holds no value it raises UndefinedRead; and with RCNT = 64 the word is rejected at issue with ERR_SEQ. -/
def Obligations.RoundComputesStep : Prop :=
  encode .round = 0x00000004#32 ∧
  (∀ (s : State) (t : Nat) (lt : t < 64) (a b c d e f g h : Word),
    s.engine.rcnt.toNat = t →
    s.engine.work.map DataWord.value = #v[a, b, c, d, e, f, g, h] →
    ∃ T1 T2 : Word,
      T1 = h + bsig1 e + ch e f g + Config.roundConstants[t] + s.engine.w[t].value ∧
      T2 = bsig0 a + maj a b c ∧
      completesOn .round s (workRegs ++ [.w ⟨t, lt⟩]) { s.engine with
        work := #v[.of (T1 + T2), .of a, .of b, .of c, .of (d + T1), .of e, .of f, .of g]
        rcnt := BitVec.ofNat 7 (t + 1) }) ∧
  (∀ e : Engine, e.busy = false → e.rcnt = 64#7 →
    e.portWrite 0x50 0x00000004#32 = { e with status := e.status ||| 0x10#5 })

/-- R172: FEEDFWD completes, at any RCNT, with H[i] the modular sum of H[i] and work[i], and changes nothing
else but the completion; where one of them holds no value it raises UndefinedRead. -/
def Obligations.FeedfwdAddsWork : Prop :=
  encode .feedfwd = 0x00000005#32 ∧
  ∀ s : State, completesOn .feedfwd s (hRegs ++ workRegs) { s.engine with
    h := Vector.ofFn fun i : Fin 8 => .of (s.engine.h[i].value + s.engine.work[i].value) }

/-- R173: COMPRESS completes: with v 0 the words of H[0..7] and v (t+1) the round step of v t on K[t] and W[t],
the working registers become v 64, H[i] becomes H[i] + (v 64)[i], RCNT becomes 64, and nothing else changes but
the completion; where one of H or W holds no value it raises UndefinedRead. -/
def Obligations.CompressRunsAllRounds : Prop :=
  encode .compress = 0x00000006#32 ∧
  ∀ s : State, ∃ v : Nat → Vector Word 8,
    v 0 = s.engine.h.map DataWord.value ∧
    (∀ t (_ : t < 64),
      v (t + 1) = roundStep Config.roundConstants[t] s.engine.w[t].value (v t)) ∧
    completesOn .compress s (hRegs ++ wRegs) { s.engine with
      work := (v 64).map .of
      h := Vector.ofFn fun i : Fin 8 => .of (s.engine.h[i].value + (v 64)[i])
      rcnt := 64#7 }

/-- R173: COMPRESS's "effect on every register, RCNT = 64 included, is that of LOADWORK, then 64 ROUNDs,
then FEEDFWD, with no host write between them". Where every register it reads holds a value the states are the
same; on a machine that goes on where one does not (log 26) the engines are. -/
def Obligations.CompressIsStepwise : Prop :=
  ∀ s : State, s.goesOn (hRegs ++ wRegs) →
    ∃ t t', exec .compress s = .next t ∧
      andThen (exec .loadwork s) (fun s1 =>
        andThen (repeatCommand .round 64 s1) (exec .feedfwd)) = .next t' ∧
      t'.engine = t.engine ∧
      ((∀ r ∈ hRegs ++ wRegs, (s.engine.get r).written = true) → t' = t)

/-- R174: BLOCK is EXPAND followed by COMPRESS, whatever W[16..63], WA..WH and RCNT were; where one of
W[0..15] or H[0..7] holds no value it raises UndefinedRead. Where they all hold values the states are the same;
on a machine that goes on where one does not (log 26) the engines are. -/
def Obligations.BlockIsExpandThenCompress : Prop :=
  encode .block = 0x00000007#32 ∧
  (∀ s : State, (∃ r ∈ blockRegs ++ hRegs, (s.engine.get r).written = false) →
    ∃ r ∈ blockRegs ++ hRegs, (s.engine.get r).written = false ∧
      raisesIn (exec .block s) s (.undefinedRead r)) ∧
  (∀ s : State, s.goesOn (blockRegs ++ hRegs) →
    ∃ t t', exec .block s = .next t ∧ andThen (exec .expand s) (exec .compress) = .next t' ∧
      t'.engine = t.engine ∧
      ((∀ r ∈ blockRegs ++ hRegs, (s.engine.get r).written = true) → t' = t))

/-- R175: `Compress(Wfull, S)` is the H that COMPRESS leaves given W = Wfull and H = S, and
`Block(M, S) = Compress(Expand(M), S)` is what BLOCK leaves in H, where every register they read holds a value.
On a machine that is not strict they are so of the bits of unwritten registers too, the model's choice
(log 26). -/
def Obligations.PureCompressionFunctions : Prop :=
  (∀ s : State, s.goesOn (hRegs ++ wRegs) →
    ∃ t, exec .compress s = .next t ∧
      t.engine.h = (compressFn (valuesOf s.engine.w) (valuesOf s.engine.h)).map .of) ∧
  (∀ s : State, s.goesOn (blockRegs ++ hRegs) →
    ∃ t, exec .block s = .next t ∧
      t.engine.h = (compressFn (expand (blockPart s.engine.w)) (valuesOf s.engine.h)).map .of)

/-- R193: from an idle state where H holds values, loading and compressing the blocks one after another leaves
the H that chains `Block` over them in order from the words of H. On a machine that is not strict it is so of the
bits of an unwritten H too, the model's choice (log 26). -/
def Obligations.BlocksChainInOrder : Prop :=
  ∀ (blocks : List (Vector Word 16)) (s : State), s.engine.busy = false → s.goesOn hRegs →
    ∃ t, runBlocks blocks s = .next t ∧ t.engine.busy = false ∧
      valuesOf t.engine.h
        = blocks.foldl (fun h m => compressFn (expand m) h) (valuesOf s.engine.h)

/-- R196 (c), R199: after INIT and BLOCK, H depends on nothing but the block words W[0..15]: two machines
that hold the same values there end with the same H, WA..WH and RCNT, and the same words in W. Of a machine that
is not strict it says so of the bits of unwritten block words too, the model's choice (log 26). -/
def Obligations.HashDependsOnBlockAlone : Prop :=
  ∀ s s' : State, s.goesOn blockRegs → s'.goesOn blockRegs →
    (∀ t (_ : t < 16), s'.engine.w[t].value = s.engine.w[t].value) →
    ∃ t t', andThen (exec .init s) (exec .block) = .next t ∧
      andThen (exec .init s') (exec .block) = .next t' ∧
      t.engine.h = t'.engine.h ∧ t.engine.work = t'.engine.work ∧
      valuesOf t.engine.w = valuesOf t'.engine.w ∧ t.engine.rcnt = t'.engine.rcnt

/-- R22, R24, R25, R27, R28, R32, R283: the frame of the hash commands. None writes OPX, OPY, OPZ or RES, or
anything outside the engine but the record of an undefined read; W[0..15] are never written, and W[16..63] only
by EXPAND and BLOCK; H only by INIT, FEEDFWD, COMPRESS and BLOCK; WA..WH and RCNT only by LOADWORK, ROUND,
COMPRESS and BLOCK. -/
def Obligations.HashCommandsFrame : Prop :=
  ∀ i ∈ [Instr.nop, .init, .expand, .loadwork, .round, .feedfwd, .compress, .block],
  ∀ s t : State, exec i s = .next t →
    t.host = s.host ∧ t.turns = s.turns ∧ t.resetHeld = s.resetHeld ∧
    t.draws = s.draws ∧ t.unit = s.unit ∧ t.strict = s.strict ∧
    (t.faults = s.faults ∨
      ∃ r, (s.engine.get r).written = false ∧ t.faults = s.faults ++ [.undefinedRead r]) ∧
    t.engine.opx = s.engine.opx ∧ t.engine.opy = s.engine.opy ∧ t.engine.opz = s.engine.opz ∧
    t.engine.res = s.engine.res ∧
    (∀ k (_ : k < 16), t.engine.w[k] = s.engine.w[k]) ∧
    (i ≠ .expand → i ≠ .block → t.engine.w = s.engine.w) ∧
    (i ≠ .init → i ≠ .feedfwd → i ≠ .compress → i ≠ .block → t.engine.h = s.engine.h) ∧
    (i ≠ .loadwork → i ≠ .round → i ≠ .compress → i ≠ .block →
      t.engine.work = s.engine.work ∧ t.engine.rcnt = s.engine.rcnt)

/-- R88, R245, R29: every completion of every command clears PENDING and BUSY, raises no error and clears
none. -/
def Obligations.CompletionClearsBusyOnly : Prop :=
  ∀ (i : Instr) (s t : State), exec i s = .next t →
    t.engine.pending = none ∧ t.engine.busy = false ∧ ∀ b, t.engine.error b = s.engine.error b

/-! ### The register port (20_memory.md, 10_state.md) -/

/-- R62, R41: a port read of each index: STATUS and ID at any time, a draw for every other index while
BUSY = 1, and while idle the register, "get" of a data register, or 0; and "get" of a register that holds a
value gives the host that value, of one that holds no value it raises UndefinedRead, which stops a strict
machine (log 26, the model's flag). K and IV are the tables of R36 and R37, whose words RomContents lists. -/
def Obligations.PortReadOfEveryIndex : Prop :=
  (∀ (e : Engine) (a : BitVec 8),
    (a = 0x51 → e.portRead a = .value (e.status.setWidth 32)) ∧
    (a = 0x57 → e.portRead a = .value 0x53323536#32) ∧
    (e.busy = true → a ≠ 0x51 → a ≠ 0x57 → e.portRead a = .draw) ∧
    (e.busy = false →
      (∀ t (_ : t < 64), a.toNat = t → e.portRead a = .data (.w (Fin.ofNat 64 t)) e.w[t].value) ∧
      (∀ i (_ : i < 8), a.toNat = 0x40 + i →
        e.portRead a = .data (.h (Fin.ofNat 8 i)) e.h[i].value) ∧
      (∀ i (_ : i < 8), a.toNat = 0x48 + i →
        e.portRead a = .data (.work (Fin.ofNat 8 i)) e.work[i].value) ∧
      (a = 0x50 → e.portRead a = .value 0#32) ∧
      (a = 0x52 → e.portRead a = .value (e.rcnt.setWidth 32)) ∧
      (a = 0x53 → e.portRead a = .data .opx e.opx.value) ∧
      (a = 0x54 → e.portRead a = .data .opy e.opy.value) ∧
      (a = 0x55 → e.portRead a = .data .opz e.opz.value) ∧
      (a = 0x56 → e.portRead a = .data .res e.res.value) ∧
      (∀ t (_ : t < 64), a.toNat = 0x80 + t → e.portRead a = .value Config.roundConstants[t]) ∧
      (∀ i (_ : i < 8), a.toNat = 0xC0 + i → e.portRead a = .value Config.initialHash[i]) ∧
      ((0x58 ≤ a.toNat ∧ a.toNat ≤ 0x7F) ∨ 0xC8 ≤ a.toNat → e.portRead a = .value 0#32))) ∧
  (∀ (s : State) (a : BitVec 8) (r : DataReg) (v : Word), s.engine.portRead a = .data r v →
    ((s.engine.get r).written = true → hostRead a s = .next (s.hostReceives v)) ∧
    ((s.engine.get r).written = false → raisesIn (hostRead a s) s (.undefinedRead r)) ∧
    ((s.engine.get r).written = false → s.strict = true → hostRead a s = .fault (.undefinedRead r)))

/-- R63, R41, R43, R249: a port write to each index: STATUS at any time; while BUSY = 1 every other write is
dropped and sets ERR_BUSY alone; while idle W, H, OPX, OPY and OPZ take the value, a write to CMD issues
the command (CommandIssue says what that does), and a write to WA..WH,
RCNT, RES, ID, K, IV or a reserved index is dropped and sets ERR_ADDR alone. -/
def Obligations.PortWriteToEveryIndex : Prop :=
  ∀ (e : Engine) (a : BitVec 8) (v : Word),
    (a = 0x51 → e.portWrite a v =
      { e with status := e.status &&& ~~~(v.setWidth 5 &&& 0x1E#5) }) ∧
    (e.busy = true → a ≠ 0x51 → e.portWrite a v = { e with status := e.status ||| 0x04#5 }) ∧
    (e.busy = false →
      (∀ t (_ : t < 64), a.toNat = t → e.portWrite a v = { e with w := e.w.set t (.of v) }) ∧
      (∀ i (_ : i < 8), a.toNat = 0x40 + i →
        e.portWrite a v = { e with h := e.h.set i (.of v) }) ∧
      (a = 0x50 → e.portWrite a v = e.issue v) ∧
      (a = 0x53 → e.portWrite a v = { e with opx := .of v }) ∧
      (a = 0x54 → e.portWrite a v = { e with opy := .of v }) ∧
      (a = 0x55 → e.portWrite a v = { e with opz := .of v }) ∧
      ((0x48 ≤ a.toNat ∧ a.toNat ≤ 0x4F) ∨ a = 0x52 ∨ 0x56 ≤ a.toNat →
        e.portWrite a v = { e with status := e.status ||| 0x08#5 }))

/-- R30: a STATUS write clears exactly the error bits in which v is 1; BUSY and everything else stay. -/
def Obligations.StatusWriteOneToClear : Prop :=
  ∀ (e : Engine) (v : Word),
    (∀ i < 5, (e.portWrite 0x51 v).status.getLsbD i =
      if 1 ≤ i ∧ v.getLsbD i = true then false else e.status.getLsbD i) ∧
    e.portWrite 0x51 v = { e with status := (e.portWrite 0x51 v).status }

/-- R240, R249: a port write other than to STATUS raises at most one error: either it sets one error bit
and changes nothing else, or every error bit stays as it was. -/
def Obligations.OneErrorPerWrite : Prop :=
  ∀ (e : Engine) (a : BitVec 8) (v : Word), a ≠ 0x51 →
    (∃ b : ErrorBit, e.portWrite a v = { e with status := e.status ||| (1#5 <<< b.index) }) ∨
    (∀ b : ErrorBit, (e.portWrite a v).error b = e.error b)

/-- R65: writing the same value to W, H, OPX, OPY or OPZ twice is idempotent, and a second write of an
accepted command is not: it is dropped with ERR_BUSY, the first still pending. -/
def Obligations.RepeatedWrites : Prop :=
  ∀ (e : Engine) (a : BitVec 8) (v : Word), e.busy = false →
    (a.toNat < 0x48 ∨ a = 0x53 ∨ a = 0x54 ∨ a = 0x55 →
      (e.portWrite a v).portWrite a v = e.portWrite a v ∧
      ∃ r, (e.portWrite a v).portRead a = .data r v ∧ ((e.portWrite a v).get r).written = true) ∧
    ((e.portWrite 0x50 v).busy = true →
      (e.portWrite 0x50 v).portWrite 0x50 v =
        { e with pending := some v, status := e.status ||| 0x05#5 })

/-- R72 (a), R280: while BUSY = 1 no step of the host changes a data register, RCNT or the pending command:
the command reads every register as it was left before it was accepted. -/
def Obligations.BusyProtectsCommand : Prop :=
  ∀ s t : State, s.engine.busy = true → s.nextTurn = .host → step s = .next t →
    (∀ r, t.engine.get r = s.engine.get r) ∧ t.engine.rcnt = s.engine.rcnt ∧
    t.engine.pending = s.engine.pending ∧ t.engine.busy = true

/-- R67: the bus address of index i is BUS_BASE + 4*i, BUS_BASE a multiple of 1024; a 4-byte access there is
the port access of index i, and any other bus access faults RefusedAccess. -/
def Obligations.BusAccessForm : Prop :=
  Config.busBase % 1024 = 0 ∧
  (∀ (i : BitVec 8) (v : Word) (s : State), s.resetHeld = false →
    hostAccess (.busRead (Config.busBase + 4 * i.toNat) 4) s = hostAccess (.read i) s ∧
    hostAccess (.busWrite (Config.busBase + 4 * i.toNat) 4 v) s = hostAccess (.write i v) s) ∧
  (∀ (addr size : Nat) (v : Word) (s : State),
    ¬(size = 4 ∧ ∃ i : BitVec 8, addr = Config.busBase + 4 * i.toNat) →
    hostAccess (.busRead addr size) s = .fault .refusedAccess ∧
    hostAccess (.busWrite addr size v) s = .fault .refusedAccess)

/-! ### Reset (70_reset_and_hazards.md) -/

/-- R42: after reset every data register holds no value, STATUS is 0, RCNT is 64, PENDING none, CMD reads 0,
and ID, K and IV hold their constants. -/
def Obligations.ResetValues : Prop :=
  (∀ r, (State.reset.engine.get r).written = false) ∧ State.reset.engine.status = 0#5 ∧
  State.reset.engine.rcnt.toNat = 64 ∧ State.reset.engine.pending = none ∧
  State.reset.engine.portRead 0x50 = .value 0#32 ∧
  State.reset.engine.portRead 0x51 = .value 0#32 ∧
  State.reset.engine.portRead 0x52 = .value 64#32 ∧
  State.reset.engine.portRead 0x57 = .value 0x53323536#32 ∧
  (∀ t (_ : t < 64), State.reset.engine.portRead (BitVec.ofNat 8 (0x80 + t))
    = .value Config.roundConstants[t]) ∧
  (∀ i (_ : i < 8), State.reset.engine.portRead (BitVec.ofNat 8 (0xC0 + i))
    = .value Config.initialHash[i])

/-- R270, R271: a reset step, taken between any two steps of a state that no fault has stopped, sets the whole
engine to its reset values (ResetValues says them), a pending command included, which never completes; a state
that a fault has stopped takes no reset, and of a strict machine that is every faulted state. What a machine
that is not strict does is the model's choice (log 26), and so is that every reset leaves an unwritten register
the same bits (log 2). -/
def Obligations.ResetStep : Prop :=
  (∀ s : State, s.stopFault = none → s.nextTurn = .reset →
    ∃ t, step s = .next t ∧ t.engine = State.reset.engine ∧ t.engine.pending = none ∧
      t.engine.status = 0#5 ∧ t.engine.rcnt = 64#7 ∧ ∀ r, (t.engine.get r).written = false) ∧
  (∀ s t : State, s.stopFault ≠ none → s.nextTurn = .reset → step s ≠ .next t) ∧
  (∀ s t : State, s.strict = true → s.faults ≠ [] → s.nextTurn = .reset → step s ≠ .next t)

/-- R271, R287: a reset step changes the engine and the order of turns alone: the host, which polls on,
stays where it is (the model's reading, log 11). That every reset leaves an unwritten register the same bits is
the model's choice (log 2). -/
def Obligations.ResetLeavesHost : Prop :=
  ∀ s : State, s.stopFault = none → s.nextTurn = .reset →
    step s = .next { s with turns := s.turns.tail, engine := State.reset.engine }

/-- R273: the turn holdReset sets the engine to its reset values and holds reset, releaseReset ends the
holding and changes nothing else, and a port access the host makes while the platform holds reset records
RefusedAccess and changes nothing else. The flag and its two turns are the model's (log 12), and so are the
form of the answer, a next state that records the fault (log 3), that a reset leaves the host and what it read as
they are (log 11), and that every reset leaves an unwritten register the same bits (log 2). -/
def Obligations.HeldResetRefusesAccess : Prop :=
  (∀ s : State, s.stopFault = none → s.nextTurn = .holdReset →
    step s = .next { s with turns := s.turns.tail, engine := State.reset.engine, resetHeld := true }) ∧
  (∀ s : State, s.stopFault = none → s.nextTurn = .releaseReset →
    step s = .next { s with turns := s.turns.tail, resetHeld := false }) ∧
  (∀ (s : State) (x : Access) (pos : Nat), s.stopFault = none → s.nextTurn = .host →
    s.resetHeld = true → s.host.next = some (x, pos) →
    step s = .next { s with turns := s.turns.tail, faults := s.faults ++ [.refusedAccess] })

/-! ### Invariants of the whole machine -/

/-- R32, R38, R85 to R87, R246: every step of the machine, whoever takes it, keeps the invariant: RCNT in
0..64, BUSY exactly when a command is pending, only accepted commands pending; and, by R270 and R273, no
command pending while reset is held. That reset is held in a flag, set and cleared by turns of its own, is
the model's form (log 12). -/
def Obligations.EveryStepKeepsInvariant : Prop :=
  ∀ s t : State, s.Inv → step s = .next t → t.Inv

/-- R42: the machine after reset meets the invariant. -/
def Obligations.ResetMeetsInvariant : Prop := State.reset.Inv

/-- R246: from a state that meets the invariant no step records InvariantViolation. -/
def Obligations.InvariantViolationUnreached : Prop :=
  ∀ s t : State, s.Inv → step s = .next t → Fault.invariantViolation ∉ t.faults

/-- R88, R89: where the order of turns says nothing more (log 6, the model's choice of a fair order), the
very next step of a machine with a pending command is the engine's: it completes the command, BUSY 0 in the
state it answers; or, on a strict machine, records the fault of its reads and nothing else (logs 3 and 26, the
model's form of a fault). -/
def Obligations.PendingCommandCompletes : Prop :=
  ∀ s : State, s.Inv → s.stopFault = none → s.turns = [] → s.engine.busy = true →
    ∃ t, step s = .next t ∧
      ((t.engine.busy = false ∧ t.engine.pending = none) ∨
       (s.strict = true ∧ ∃ r, (s.engine.get r).written = false ∧
         t = { s with faults := s.faults ++ [.undefinedRead r] }))

/-- R256: a step of one instance leaves every other instance as it was. -/
def Obligations.InstancesShareNothing : Prop :=
  ∀ (p : List State) (i j : Nat), i ≠ j →
    (stepInstance i p)[j]? = p[j]? ∧ (stepInstance i p).length = p.length ∧
    (∀ s t, p[i]? = some s → step s = .next t → (stepInstance i p)[i]? = some t)

/-! ### The host's software (41_host_padding.md, 44_digest_and_control.md) -/

/-- R141 to R144: `Pad(m)` is m, the byte 0x80, Z = (55 - L) mod 64 zero bytes, and the bit length of m as
eight bytes; its length is L + 9 + Z, a positive multiple of 64, and the blocks number
floor((L + 8) / 64) + 1. For a message of 2^64 bits or more, which the spec's Pad leaves out, it speaks of
the model's total function (log 24). -/
def Obligations.PaddingLayout : Prop :=
  ∀ m : List Byte, ∃ z : Nat,
    (z : Int) = (55 - (m.length : Int)) % 64 ∧
    pad m = m ++ [0x80#8] ++ List.replicate z 0#8 ++ be64 (m.length * 8) ∧
    (pad m).length = m.length + 9 + z ∧ (pad m).length % 64 = 0 ∧ 0 < (pad m).length ∧
    blockCount m = (m.length + 8) / 64 + 1

/-- R143, R11: `BE64(n)` is eight bytes whose big-endian value is n, for every bit length below 2^64. -/
def Obligations.LengthFieldBigEndian : Prop :=
  ∀ n : Nat, n < 2 ^ 64 →
    (be64 n).length = 8 ∧ (be64 n).foldl (fun acc b => acc * 256 + b.toNat) 0 = n

/-- R145, R148: every block of a padded message has exactly 64 bytes, and the blocks in order are the padded
message. For a message of 2^64 bits or more, which the spec's Pad leaves out (R6, R144), it speaks of the
model's total function (log 24). -/
def Obligations.BlocksPartitionPadding : Prop :=
  ∀ m : List Byte,
    (∀ j < blockCount m, (blockBytes m j).length = 64) ∧
    ((List.range (blockCount m)).map (blockBytes m)).flatten = pad m

/-- R147: word t of a block is the big-endian value of its bytes 4t to 4t+3. -/
def Obligations.BlockWordsBigEndian : Prop :=
  ∀ (b : List Byte) (_ : b.length = 64) (t : Nat) (_ : t < 16),
    (blockWords b)[t].toNat =
      b[4 * t].toNat * 2 ^ 24 + b[4 * t + 1].toNat * 2 ^ 16 + b[4 * t + 2].toNat * 2 ^ 8
        + b[4 * t + 3].toNat

/-- R194: the digest is 32 bytes, and its byte 4i + j is bits 31-8j down to 24-8j of Hi. -/
def Obligations.DigestBytes : Prop :=
  ∀ h : Vector Word 8, (digest h).length = 32 ∧
    ∀ i (_ : i < 8), ∀ j < 4, (digest h)[4 * i + j]? = some (h[i].extractLsb' (24 - 8 * j) 8)

/-- R195, R196 (a): `Hex` writes two lowercase digits per byte, in byte order, high nibble first; the hash of
a message is the rendered digest of the H its blocks chain to from IV; and it has exactly 64 characters, each
in [0-9a-f]. For a message of 2^64 bits or more, which the spec gives no hash, it speaks of the model's total
function (log 24). -/
def Obligations.HashRendering : Prop :=
  (∀ d : List Byte, (hex d).length = 2 * d.length ∧
    ∀ i (_ : i < d.length),
      (hex d)[2 * i]? = some (Char.ofNat (if d[i].toNat / 16 < 10 then 0x30 + d[i].toNat / 16
        else 0x61 + (d[i].toNat / 16 - 10))) ∧
      (hex d)[2 * i + 1]? = some (Char.ofNat (if d[i].toNat % 16 < 10 then 0x30 + d[i].toNat % 16
        else 0x61 + (d[i].toNat % 16 - 10)))) ∧
  (∀ m : List Byte,
    hashOf m = hex (digest ((messageBlocks m).foldl (fun h b => compressFn (expand b) h)
      Config.initialHash)) ∧
    (hashOf m).length = 64 ∧
    ∀ c ∈ hashOf m, ('0' ≤ c ∧ c ≤ '9') ∨ ('a' ≤ c ∧ c ≤ 'f'))

/-- R6, R140: the host refuses an input that is neither text nor bytes, and a message of 2^64 bits or more,
without a program; every other message gets the program of R192. Assembled, that program clears the error bits
and runs INIT, then for each block in order writes its 16 words to W[0..15] and runs BLOCK, then reads STATUS and
H0 to H7, each RUN a CMD write and the poll of BUSY after it. R198: the run ends there; its result is the 8 words
read, rendered, where no fault is recorded, no command is pending and the STATUS read was 0, and none otherwise.
The form of the result is log 23, and that a text is always encodable is log 18, both the model's. -/
def Obligations.HostAcceptance : Prop :=
  hashProgram .other = .error .inputTypeError ∧
  (∀ text : String, canonical (.text text) = .ok (text.toUTF8.data.toList.map UInt8.toBitVec)) ∧
  (∀ text : String, (text.toUTF8.data.toList.map UInt8.toBitVec).length * 8 < 2 ^ 64 →
    hashProgram (.text text) = .ok (hashLines (text.toUTF8.data.toList.map UInt8.toBitVec))) ∧
  (∀ text : String, 2 ^ 64 ≤ (text.toUTF8.data.toList.map UInt8.toBitVec).length * 8 →
    hashProgram (.text text) = .error .messageTooLong) ∧
  (∀ m : List Byte, 2 ^ 64 ≤ m.length * 8 → hashProgram (.bytes m) = .error .messageTooLong) ∧
  (∀ m : List Byte, m.length * 8 < 2 ^ 64 → hashProgram (.bytes m) = .ok (hashLines m)) ∧
  (∀ m : List Byte, m.length * 8 < 2 ^ 64 → assemble (hashLines m) = some (
    [.access (.write 0x51 0x0000001E#32), .access (.write 0x50 0x00000001#32), .access (.read 0x51),
      .bnz 2 0] ++
    ((List.range (blockCount m)).map fun j =>
      (List.ofFn fun t : Fin 16 =>
        HostInstr.access (.write (BitVec.ofNat 8 t) (blockWords (blockBytes m j))[t])) ++
      [.access (.write 0x50 0x00000007#32), .access (.read 0x51), .bnz (21 + 19 * j) 0]).flatten ++
    .access (.read 0x51) ::
      (List.range 8).map fun i => .access (.read (BitVec.ofNat 8 (0x40 + i))))) ∧
  (∀ (s : State) (h : Vector Word 8) (status : Word) (before : List Word), s.host.next = none →
    s.host.reads = h.toList.reverse ++ status :: before →
    s.hashResult = if s.faults = [] ∧ s.engine.pending = none ∧ status = 0#32 then some (hex (digest h))
      else none)

/-! ### The ROMs and the outcomes (10_state.md, 00_scope.md) -/

/-- R36, R37, R43: K[0..63] and IV[0..7] are the words the spec lists, and a port read of 0x80 + t or
0xC0 + i gives them while idle, whatever was written before. -/
def Obligations.RomContents : Prop :=
  Config.roundConstants.toList =
    [0x428a2f98#32, 0x71374491#32, 0xb5c0fbcf#32, 0xe9b5dba5#32,
   0x3956c25b#32, 0x59f111f1#32, 0x923f82a4#32, 0xab1c5ed5#32,
   0xd807aa98#32, 0x12835b01#32, 0x243185be#32, 0x550c7dc3#32,
   0x72be5d74#32, 0x80deb1fe#32, 0x9bdc06a7#32, 0xc19bf174#32] ++
    [0xe49b69c1#32, 0xefbe4786#32, 0x0fc19dc6#32, 0x240ca1cc#32,
   0x2de92c6f#32, 0x4a7484aa#32, 0x5cb0a9dc#32, 0x76f988da#32,
   0x983e5152#32, 0xa831c66d#32, 0xb00327c8#32, 0xbf597fc7#32,
   0xc6e00bf3#32, 0xd5a79147#32, 0x06ca6351#32, 0x14292967#32] ++
    [0x27b70a85#32, 0x2e1b2138#32, 0x4d2c6dfc#32, 0x53380d13#32,
   0x650a7354#32, 0x766a0abb#32, 0x81c2c92e#32, 0x92722c85#32,
   0xa2bfe8a1#32, 0xa81a664b#32, 0xc24b8b70#32, 0xc76c51a3#32,
   0xd192e819#32, 0xd6990624#32, 0xf40e3585#32, 0x106aa070#32] ++
    [0x19a4c116#32, 0x1e376c08#32, 0x2748774c#32, 0x34b0bcb5#32,
   0x391c0cb3#32, 0x4ed8aa4a#32, 0x5b9cca4f#32, 0x682e6ff3#32,
   0x748f82ee#32, 0x78a5636f#32, 0x84c87814#32, 0x8cc70208#32,
   0x90befffa#32, 0xa4506ceb#32, 0xbef9a3f7#32, 0xc67178f2#32] ∧
  Config.initialHash.toList =
    [0x6a09e667#32, 0xbb67ae85#32, 0x3c6ef372#32, 0xa54ff53a#32,
     0x510e527f#32, 0x9b05688c#32, 0x1f83d9ab#32, 0x5be0cd19#32] ∧
  (∀ (e : Engine) (a : BitVec 8) (v : Word), (e.portWrite a v).busy = false →
    (∀ t (_ : t < 64), (e.portWrite a v).portRead (BitVec.ofNat 8 (0x80 + t))
      = .value Config.roundConstants[t]) ∧
    (∀ i (_ : i < 8), (e.portWrite a v).portRead (BitVec.ofNat 8 (0xC0 + i))
      = .value Config.initialHash[i]))

/-- R13 (3): which agent has no step. The engine is stuck exactly without a pending command (R88), the host
exactly where its program has no further access (R258, R272), the platform never (R270, R273); and from a
state that a fault has stopped every agent is stuck (R44), which of a strict machine is every faulted state. The
platform's turns holdReset and releaseReset are the model's (log 12), that the turn of a stuck agent passes,
while no fault has stopped the machine, is the form the model chose (log 7), and so is what a machine that is
not strict does (log 26). -/
def Obligations.StuckAgents : Prop :=
  (∀ s : State, s.stopFault = none →
    (agentStep .engine s = .stuck ↔ s.engine.pending = none) ∧
    (agentStep .host s = .stuck ↔ s.host.next = none) ∧
    agentStep .reset s ≠ .stuck ∧ agentStep .holdReset s ≠ .stuck ∧ agentStep .releaseReset s ≠ .stuck ∧
    (agentStep s.nextTurn { s with turns := s.turns.tail } = .stuck →
      step s = .next { s with turns := s.turns.tail })) ∧
  (∀ (s : State) (t : Turn), s.stopFault ≠ none → agentStep t s = .stuck) ∧
  (∀ (s : State) (t : Turn), s.strict = true → s.faults ≠ [] → agentStep t s = .stuck)

/-! ### A read of a register that holds no value (R21, R247) -/

/-- R21, R88, R13: on a strict machine, which every run from reset is, a command that reads a register which
holds no value faults as a whole and names one that it reads and that holds none; its step applies none of its
writes, records the fault, and leaves a state from which no agent steps. The flag is the model's (log 26) and the
form of the answer is log 3. -/
def Obligations.StrictUndefinedReadStops : Prop :=
  ∀ (s : State) (v : Word) (i : Instr), s.strict = true → s.faults = [] → s.nextTurn = .engine →
    s.engine.pending = some v → decode v = .ok i → (i = .round → s.engine.rcnt.toNat < 64) →
    (∃ r ∈ commandReads s.engine i, (s.engine.get r).written = false) →
    ∃ r ∈ commandReads s.engine i, (s.engine.get r).written = false ∧
      exec i { s with turns := s.turns.tail } = .fault (.undefinedRead r) ∧
      step s = .next { s with turns := s.turns.tail, faults := [.undefinedRead r] } ∧
      ∀ a, agentStep a { s with turns := s.turns.tail, faults := [.undefinedRead r] } = .stuck

/-- R247, R21: on a machine that is not strict, every command runs on the bits its registers have: it leaves the
bits, RCNT, STATUS and PENDING it would leave where all of them held a value; where every register it reads holds
a value it records nothing, and where one holds none it records UndefinedRead of such a register that it reads.
That it goes on is the model's choice (log 26). -/
def Obligations.UndefinedReadGoesOn : Prop :=
  ∀ (i : Instr) (s : State), s.strict = false → (i = .round → s.engine.rcnt.toNat < 64) →
    ∃ t u, exec i s = .next t ∧ exec i s.filled = .next u ∧ u.faults = s.faults ∧
      (∀ r, (t.engine.get r).value = (u.engine.get r).value) ∧
      t.engine.rcnt = u.engine.rcnt ∧ t.engine.status = u.engine.status ∧
      t.engine.pending = u.engine.pending ∧
      ((∀ r ∈ commandReads s.engine i, (s.engine.get r).written = true) → t.faults = s.faults) ∧
      ((∃ r ∈ commandReads s.engine i, (s.engine.get r).written = false) →
        ∃ r ∈ commandReads s.engine i, (s.engine.get r).written = false ∧
          t.faults = s.faults ++ [.undefinedRead r])

/-- R21, R63: a register gets a value when it is written and loses it at a reset alone: no step but a reset of
the platform leaves a register that holds a value without one. -/
def Obligations.WrittenRegistersStayWritten : Prop :=
  ∀ (s t : State) (r : DataReg), step s = .next t → s.nextTurn ≠ .reset → s.nextTurn ≠ .holdReset →
    (s.engine.get r).written = true → (t.engine.get r).written = true

/-- R44: with no fault recorded, a strict machine and one that is not make the same step, until one of them
records a fault: a run without a fault is the same on both (log 26). The two are one machine but for the flag, so
where the host reads while BUSY both get the same draw (log 5), and where it branches before its first read both
test the same value (log 9), and a reset leaves both the same bits (log 2), the model's choices. -/
def Obligations.StrictnessChangesNoCleanRun : Prop :=
  ∀ s t : State, s.faults = [] → t.faults = [] →
    (step { s with strict := false } = .next { t with strict := false } ↔
     step { s with strict := true } = .next { t with strict := true })
end

