-- ==== Sys2Proof/Laws/Decode.lean ====
section
/-! SUPPORT. A command word as a number: its fields, and the fields of the command the decoder reads. -/

namespace Sys2Proof

theorem opField_toNat (v : Word) : (opField v).toNat = v.toNat % 256 := by
  simp [opField, BitVec.extractLsb'_toNat]

theorem amountField_toNat (v : Word) : (amountField v).toNat = v.toNat / 256 % 32 := by
  simp [amountField, BitVec.extractLsb'_toNat, Nat.shiftRight_eq_div_pow]

theorem rsvField_toNat (v : Word) : (rsvField v).toNat = v.toNat / 8192 := by
  simp [rsvField, BitVec.extractLsb'_toNat, Nat.shiftRight_eq_div_pow]
  have := v.isLt
  omega

/-- A word is the number its three fields make (R80). -/
theorem word_toNat (v : Word) :
    v.toNat = (rsvField v).toNat * 8192 + (amountField v).toNat * 256 + (opField v).toNat := by
  rw [opField_toNat, amountField_toNat, rsvField_toNat]
  omega

theorem encode_toNat (i : Instr) : (encode i).toNat = i.amount.toNat * 256 + i.opcode.toNat := by
  have lt := i.opcode.isLt
  unfold encode
  rw [BitVec.toNat_append, BitVec.toNat_append]
  simp only [BitVec.toNat_ofNat, Nat.zero_mod, Nat.zero_shiftLeft, Nat.zero_or]
  rw [Nat.shiftLeft_eq, Nat.mul_comm, ← Nat.two_pow_add_eq_or_of_lt lt, Nat.mul_comm]

/-- The fields of a word the decoder accepts are those of the command it reads. -/
theorem decode_fields {v : Word} {i : Instr} (accepted : decode v = .ok i) :
    rsvField v = 0#19 ∧ amountField v = i.amount ∧ opField v = i.opcode ∧ i.wellFormed = true := by
  unfold decode at accepted
  split at accepted
  · cases accepted
  rename_i rsv
  refine ⟨by simpa using rsv, ?_⟩
  split at accepted
  case h_13 =>
    rename_i op
    split at accepted <;> cases accepted
    rename_i nonzero
    exact ⟨rfl, BitVec.eq_of_toNat_eq op, by simpa [Instr.wellFormed] using nonzero⟩
  case h_14 =>
    rename_i op
    cases accepted
    exact ⟨rfl, BitVec.eq_of_toNat_eq op, rfl⟩
  case h_21 => cases accepted
  all_goals
    rename_i op
    unfold withoutAmount at accepted
    split at accepted <;> cases accepted
    rename_i zero
    exact ⟨zero, BitVec.eq_of_toNat_eq op, rfl⟩

end Sys2Proof
end

