-- ==== Sys2Proof/Laws/State.lean ====
section
/-! SUPPORT. One lemma per field per update of the engine and of the machine's state, so that no proof
unfolds a record update, and the read-after-write laws of the data registers. -/

namespace Sys2Proof.Machine

/-! Raising an error (R240) changes STATUS alone. -/

@[simp] theorem Engine.raise_w (e : Engine) (b : ErrorBit) :
    (e.raise b).w = e.w := rfl

@[simp] theorem Engine.raise_h (e : Engine) (b : ErrorBit) :
    (e.raise b).h = e.h := rfl

@[simp] theorem Engine.raise_work (e : Engine) (b : ErrorBit) :
    (e.raise b).work = e.work := rfl

@[simp] theorem Engine.raise_opx (e : Engine) (b : ErrorBit) :
    (e.raise b).opx = e.opx := rfl

@[simp] theorem Engine.raise_opy (e : Engine) (b : ErrorBit) :
    (e.raise b).opy = e.opy := rfl

@[simp] theorem Engine.raise_opz (e : Engine) (b : ErrorBit) :
    (e.raise b).opz = e.opz := rfl

@[simp] theorem Engine.raise_res (e : Engine) (b : ErrorBit) :
    (e.raise b).res = e.res := rfl

@[simp] theorem Engine.raise_status (e : Engine) (b : ErrorBit) :
    (e.raise b).status = e.status ||| (1#5 <<< b.index) := rfl

@[simp] theorem Engine.raise_rcnt (e : Engine) (b : ErrorBit) :
    (e.raise b).rcnt = e.rcnt := rfl

@[simp] theorem Engine.raise_pending (e : Engine) (b : ErrorBit) :
    (e.raise b).pending = e.pending := rfl

/-! A STATUS write (R30) changes STATUS alone. -/

@[simp] theorem Engine.writeStatus_w (e : Engine) (v : Word) :
    (e.writeStatus v).w = e.w := rfl

@[simp] theorem Engine.writeStatus_h (e : Engine) (v : Word) :
    (e.writeStatus v).h = e.h := rfl

@[simp] theorem Engine.writeStatus_work (e : Engine) (v : Word) :
    (e.writeStatus v).work = e.work := rfl

@[simp] theorem Engine.writeStatus_opx (e : Engine) (v : Word) :
    (e.writeStatus v).opx = e.opx := rfl

@[simp] theorem Engine.writeStatus_opy (e : Engine) (v : Word) :
    (e.writeStatus v).opy = e.opy := rfl

@[simp] theorem Engine.writeStatus_opz (e : Engine) (v : Word) :
    (e.writeStatus v).opz = e.opz := rfl

@[simp] theorem Engine.writeStatus_res (e : Engine) (v : Word) :
    (e.writeStatus v).res = e.res := rfl

@[simp] theorem Engine.writeStatus_status (e : Engine) (v : Word) :
    (e.writeStatus v).status = statusClear e.status v := rfl

@[simp] theorem Engine.writeStatus_rcnt (e : Engine) (v : Word) :
    (e.writeStatus v).rcnt = e.rcnt := rfl

@[simp] theorem Engine.writeStatus_pending (e : Engine) (v : Word) :
    (e.writeStatus v).pending = e.pending := rfl

/-! Completion (R88) changes STATUS and PENDING. -/

@[simp] theorem Engine.finish_w (e : Engine) :
    (e.finish).w = e.w := rfl

@[simp] theorem Engine.finish_h (e : Engine) :
    (e.finish).h = e.h := rfl

@[simp] theorem Engine.finish_work (e : Engine) :
    (e.finish).work = e.work := rfl

@[simp] theorem Engine.finish_opx (e : Engine) :
    (e.finish).opx = e.opx := rfl

@[simp] theorem Engine.finish_opy (e : Engine) :
    (e.finish).opy = e.opy := rfl

@[simp] theorem Engine.finish_opz (e : Engine) :
    (e.finish).opz = e.opz := rfl

@[simp] theorem Engine.finish_res (e : Engine) :
    (e.finish).res = e.res := rfl

@[simp] theorem Engine.finish_status (e : Engine) :
    (e.finish).status = statusIdle e.status := rfl

@[simp] theorem Engine.finish_rcnt (e : Engine) :
    (e.finish).rcnt = e.rcnt := rfl

@[simp] theorem Engine.finish_pending (e : Engine) :
    (e.finish).pending = none := rfl

/-! What COMPRESS leaves (R173). -/

@[simp] theorem Engine.compressed_w (e : Engine) (v : Vector Word 64) (u : Vector Word 8) :
    (e.compressed v u).w = e.w := rfl

@[simp] theorem Engine.compressed_h (e : Engine) (v : Vector Word 64) (u : Vector Word 8) :
    (e.compressed v u).h = held (compressFn v u) := rfl

@[simp] theorem Engine.compressed_work (e : Engine) (v : Vector Word 64) (u : Vector Word 8) :
    (e.compressed v u).work = held (rounds64 v u) := rfl

@[simp] theorem Engine.compressed_opx (e : Engine) (v : Vector Word 64) (u : Vector Word 8) :
    (e.compressed v u).opx = e.opx := rfl

@[simp] theorem Engine.compressed_opy (e : Engine) (v : Vector Word 64) (u : Vector Word 8) :
    (e.compressed v u).opy = e.opy := rfl

@[simp] theorem Engine.compressed_opz (e : Engine) (v : Vector Word 64) (u : Vector Word 8) :
    (e.compressed v u).opz = e.opz := rfl

@[simp] theorem Engine.compressed_res (e : Engine) (v : Vector Word 64) (u : Vector Word 8) :
    (e.compressed v u).res = e.res := rfl

@[simp] theorem Engine.compressed_status (e : Engine) (v : Vector Word 64) (u : Vector Word 8) :
    (e.compressed v u).status = e.status := rfl

@[simp] theorem Engine.compressed_rcnt (e : Engine) (v : Vector Word 64) (u : Vector Word 8) :
    (e.compressed v u).rcnt = 64 := rfl

@[simp] theorem Engine.compressed_pending (e : Engine) (v : Vector Word 64) (u : Vector Word 8) :
    (e.compressed v u).pending = e.pending := rfl

/-! Recording a fault (R44). -/

@[simp] theorem State.recordFault_engine (s : State) (f : Fault) :
    (s.recordFault f).engine = s.engine := rfl

@[simp] theorem State.recordFault_host (s : State) (f : Fault) :
    (s.recordFault f).host = s.host := rfl

@[simp] theorem State.recordFault_faults (s : State) (f : Fault) :
    (s.recordFault f).faults = s.faults ++ [f] := rfl

@[simp] theorem State.recordFault_turns (s : State) (f : Fault) :
    (s.recordFault f).turns = s.turns := rfl

@[simp] theorem State.recordFault_resetHeld (s : State) (f : Fault) :
    (s.recordFault f).resetHeld = s.resetHeld := rfl

@[simp] theorem State.recordFault_draws (s : State) (f : Fault) :
    (s.recordFault f).draws = s.draws := rfl

@[simp] theorem State.recordFault_unit (s : State) (f : Fault) :
    (s.recordFault f).unit = s.unit := rfl

@[simp] theorem State.recordFault_strict (s : State) (f : Fault) :
    (s.recordFault f).strict = s.strict := rfl

/-! The platform's reset (R270). -/

@[simp] theorem State.platformReset_engine (s : State) :
    (s.platformReset).engine = Engine.reset := rfl

@[simp] theorem State.platformReset_host (s : State) :
    (s.platformReset).host = s.host := rfl

@[simp] theorem State.platformReset_faults (s : State) :
    (s.platformReset).faults = s.faults := rfl

@[simp] theorem State.platformReset_turns (s : State) :
    (s.platformReset).turns = s.turns := rfl

@[simp] theorem State.platformReset_resetHeld (s : State) :
    (s.platformReset).resetHeld = s.resetHeld := rfl

@[simp] theorem State.platformReset_draws (s : State) :
    (s.platformReset).draws = s.draws := rfl

@[simp] theorem State.platformReset_unit (s : State) :
    (s.platformReset).unit = s.unit := rfl

@[simp] theorem State.platformReset_strict (s : State) :
    (s.platformReset).strict = s.strict := rfl

/-! Placing a command. -/

@[simp] theorem State.placeCommand_engine (s : State) (v : Word) :
    (s.placeCommand v).engine = { s.engine with pending := some v, status := statusBusy s.engine.status } := rfl

@[simp] theorem State.placeCommand_host (s : State) (v : Word) :
    (s.placeCommand v).host = s.host := rfl

@[simp] theorem State.placeCommand_faults (s : State) (v : Word) :
    (s.placeCommand v).faults = [] := rfl

@[simp] theorem State.placeCommand_turns (s : State) (v : Word) :
    (s.placeCommand v).turns = .engine :: s.turns := rfl

@[simp] theorem State.placeCommand_resetHeld (s : State) (v : Word) :
    (s.placeCommand v).resetHeld = s.resetHeld := rfl

@[simp] theorem State.placeCommand_draws (s : State) (v : Word) :
    (s.placeCommand v).draws = s.draws := rfl

@[simp] theorem State.placeCommand_unit (s : State) (v : Word) :
    (s.placeCommand v).unit = s.unit := rfl

@[simp] theorem State.placeCommand_strict (s : State) (v : Word) :
    (s.placeCommand v).strict = s.strict := rfl

/-! The host's position and what it reads. -/

@[simp] theorem State.hostAt_engine (s : State) (pos : Nat) :
    (s.hostAt pos).engine = s.engine := rfl

@[simp] theorem State.hostAt_host (s : State) (pos : Nat) :
    (s.hostAt pos).host = { s.host with pos := pos } := rfl

@[simp] theorem State.hostAt_faults (s : State) (pos : Nat) :
    (s.hostAt pos).faults = s.faults := rfl

@[simp] theorem State.hostAt_turns (s : State) (pos : Nat) :
    (s.hostAt pos).turns = s.turns := rfl

@[simp] theorem State.hostAt_resetHeld (s : State) (pos : Nat) :
    (s.hostAt pos).resetHeld = s.resetHeld := rfl

@[simp] theorem State.hostAt_draws (s : State) (pos : Nat) :
    (s.hostAt pos).draws = s.draws := rfl

@[simp] theorem State.hostAt_unit (s : State) (pos : Nat) :
    (s.hostAt pos).unit = s.unit := rfl

@[simp] theorem State.hostAt_strict (s : State) (pos : Nat) :
    (s.hostAt pos).strict = s.strict := rfl

@[simp] theorem State.hostReceives_engine (s : State) (v : Word) :
    (s.hostReceives v).engine = s.engine := rfl

@[simp] theorem State.hostReceives_host (s : State) (v : Word) :
    (s.hostReceives v).host = { s.host with reads := v :: s.host.reads } := rfl

@[simp] theorem State.hostReceives_faults (s : State) (v : Word) :
    (s.hostReceives v).faults = s.faults := rfl

@[simp] theorem State.hostReceives_turns (s : State) (v : Word) :
    (s.hostReceives v).turns = s.turns := rfl

@[simp] theorem State.hostReceives_resetHeld (s : State) (v : Word) :
    (s.hostReceives v).resetHeld = s.resetHeld := rfl

@[simp] theorem State.hostReceives_draws (s : State) (v : Word) :
    (s.hostReceives v).draws = s.draws := rfl

@[simp] theorem State.hostReceives_unit (s : State) (v : Word) :
    (s.hostReceives v).unit = s.unit := rfl

@[simp] theorem State.hostReceives_strict (s : State) (v : Word) :
    (s.hostReceives v).strict = s.strict := rfl

@[simp] theorem State.withProgram_engine (s : State) (p : List HostInstr) :
    (s.withProgram p).engine = s.engine := rfl

@[simp] theorem State.withProgram_host (s : State) (p : List HostInstr) :
    (s.withProgram p).host = { program := p, pos := 0, reads := [] } := rfl

@[simp] theorem State.withProgram_faults (s : State) (p : List HostInstr) :
    (s.withProgram p).faults = s.faults := rfl

@[simp] theorem State.withProgram_turns (s : State) (p : List HostInstr) :
    (s.withProgram p).turns = s.turns := rfl

@[simp] theorem State.withProgram_resetHeld (s : State) (p : List HostInstr) :
    (s.withProgram p).resetHeld = s.resetHeld := rfl

@[simp] theorem State.withProgram_draws (s : State) (p : List HostInstr) :
    (s.withProgram p).draws = s.draws := rfl

@[simp] theorem State.withProgram_unit (s : State) (p : List HostInstr) :
    (s.withProgram p).unit = s.unit := rfl

@[simp] theorem State.withProgram_strict (s : State) (p : List HostInstr) :
    (s.withProgram p).strict = s.strict := rfl

/-! Taking a turn off the order (R71). -/

@[simp] theorem State.afterTurn_engine (s : State) :
    (s.afterTurn).engine = s.engine := rfl

@[simp] theorem State.afterTurn_host (s : State) :
    (s.afterTurn).host = s.host := rfl

@[simp] theorem State.afterTurn_faults (s : State) :
    (s.afterTurn).faults = s.faults := rfl

@[simp] theorem State.afterTurn_turns (s : State) :
    (s.afterTurn).turns = s.turns.tail := rfl

@[simp] theorem State.afterTurn_resetHeld (s : State) :
    (s.afterTurn).resetHeld = s.resetHeld := rfl

@[simp] theorem State.afterTurn_draws (s : State) :
    (s.afterTurn).draws = s.draws := rfl

@[simp] theorem State.afterTurn_unit (s : State) :
    (s.afterTurn).unit = s.unit := rfl

@[simp] theorem State.afterTurn_strict (s : State) :
    (s.afterTurn).strict = s.strict := rfl

/-! The completed state (R88). -/

@[simp] theorem State.completedWith_engine (s : State) (e : Engine) :
    (s.completedWith e).engine = { e with status := e.status &&& 0x1E#5, pending := none } := rfl

@[simp] theorem State.completedWith_host (s : State) (e : Engine) :
    (s.completedWith e).host = s.host := rfl

@[simp] theorem State.completedWith_faults (s : State) (e : Engine) :
    (s.completedWith e).faults = s.faults := rfl

@[simp] theorem State.completedWith_turns (s : State) (e : Engine) :
    (s.completedWith e).turns = s.turns := rfl

@[simp] theorem State.completedWith_resetHeld (s : State) (e : Engine) :
    (s.completedWith e).resetHeld = s.resetHeld := rfl

@[simp] theorem State.completedWith_draws (s : State) (e : Engine) :
    (s.completedWith e).draws = s.draws := rfl

@[simp] theorem State.completedWith_unit (s : State) (e : Engine) :
    (s.completedWith e).unit = s.unit := rfl

@[simp] theorem State.completedWith_strict (s : State) (e : Engine) :
    (s.completedWith e).strict = s.strict := rfl

/-! Writing a data register (R21, R63) touches no control register, and reads back. -/

@[simp] theorem Engine.set_status (e : Engine) (r : DataReg) (v : Word) :
    (e.set r v).status = e.status := by cases r <;> rfl

@[simp] theorem Engine.set_rcnt (e : Engine) (r : DataReg) (v : Word) :
    (e.set r v).rcnt = e.rcnt := by cases r <;> rfl

@[simp] theorem Engine.set_pending (e : Engine) (r : DataReg) (v : Word) :
    (e.set r v).pending = e.pending := by cases r <;> rfl

theorem Engine.get_set_same (e : Engine) (r : DataReg) (v : Word) : (e.set r v).get r = .of v := by
  cases r <;> simp [Engine.get, Engine.set]

theorem Engine.get_set_other (e : Engine) {q r : DataReg} (v : Word) (ne : q ≠ r) :
    (e.set r v).get q = e.get q := by
  cases q <;> cases r <;> simp_all [Engine.get, Engine.set, Fin.ext_iff, eq_comm]

/-! STATUS after each update, bit by bit. -/

/-- Completion clears BUSY (R88). -/
@[simp] theorem Engine.finish_busy (e : Engine) : e.finish.busy = false := by
  simp [Engine.busy, Engine.finish, statusIdle]

/-- Completion leaves the error bits (R29: "No command clears them"; R245). -/
@[simp] theorem Engine.finish_error (e : Engine) (b : ErrorBit) : e.finish.error b = e.error b := by
  cases b <;> simp [Engine.error, Engine.finish, statusIdle, ErrorBit.index]

/-- Raising an error leaves BUSY (R240). -/
@[simp] theorem Engine.raise_busy (e : Engine) (b : ErrorBit) : (e.raise b).busy = e.busy := by
  cases b <;> simp [Engine.busy, Engine.raise, ErrorBit.index]

/-- A STATUS write leaves BUSY (R30). -/
@[simp] theorem Engine.writeStatus_busy (e : Engine) (v : Word) : (e.writeStatus v).busy = e.busy := by
  simp [Engine.busy, Engine.writeStatus, statusClear]

end Sys2Proof.Machine
end

