-- ==== Sys2Proof/Laws/Operands.lean ====
section
/-! SUPPORT. What the operand forms give: the words of a register file, and the registers a list names. -/

namespace Sys2Proof.Machine

@[simp] theorem of_value (v : Word) : (DataWord.of v).value = v := rfl
@[simp] theorem of_written (v : Word) : (DataWord.of v).written = true := rfl
@[simp] theorem filled_value (d : DataWord) : d.filled.value = d.value := rfl
@[simp] theorem filled_written (d : DataWord) : d.filled.written = true := rfl

/-- A register that holds a value is its value, written. -/
theorem eq_of_written {d : DataWord} (written : d.written = true) : d = .of d.value := by
  cases d
  simp_all [DataWord.of]

@[simp] theorem held_getElem {n : Nat} (v : Vector Word n) (i : Nat) (lt : i < n) :
    (held v)[i] = .of v[i] := by
  simp [held]

@[simp] theorem valuesOf_getElem {n : Nat} (v : Vector DataWord n) (i : Nat) (lt : i < n) :
    (valuesOf v)[i] = v[i].value := by
  simp [valuesOf]

@[simp] theorem valuesOf_held {n : Nat} (v : Vector Word n) : valuesOf (held v) = v := by
  ext1 i lt
  simp

theorem held_injective {n : Nat} {u v : Vector Word n} (eq : held u = held v) : u = v := by
  rw [← valuesOf_held u, eq, valuesOf_held]

@[simp] theorem blockPart_getElem (w : Vector DataWord 64) (t : Nat) (lt : t < 16) :
    (blockPart w)[t] = w[t].value := by
  simp [blockPart]

/-- The expansion leaves W[0..15] as they were. -/
theorem expandedFile_block (w : Vector DataWord 64) (u : Vector Word 64) (t : Nat) (lt : t < 16) :
    (expandedFile w u)[t] = w[t] := by
  simp [expandedFile, lt]

/-- The expansion writes W[16..63]. -/
theorem expandedFile_rest (w : Vector DataWord 64) (u : Vector Word 64) (t : Nat) (ge : 16 ≤ t)
    (lt : t < 64) : (expandedFile w u)[t] = .of u[t] := by
  simp [expandedFile, Nat.not_lt.2 ge]

theorem mem_hRegs (r : DataReg) : r ∈ hRegs ↔ ∃ i, r = .h i := by
  simp [hRegs, eq_comm]

theorem mem_workRegs (r : DataReg) : r ∈ workRegs ↔ ∃ i, r = .work i := by
  simp [workRegs, eq_comm]

theorem mem_wRegs (r : DataReg) : r ∈ wRegs ↔ ∃ t, r = .w t := by
  simp [wRegs, eq_comm]

theorem mem_blockRegs (r : DataReg) :
    r ∈ blockRegs ↔ ∃ t : Fin 16, r = .w (t.castLE (by decide)) := by
  simp [blockRegs, eq_comm]

/-- Every data register of a filled machine holds the bits it had, as a value. -/
@[simp] theorem get_filled (s : State) (r : DataReg) : s.filled.engine.get r = (s.engine.get r).filled := by
  cases r <;> simp [Engine.get, State.filled]

end Sys2Proof.Machine
end

