-- ==== Sys2Proof/Laws/Ops.lean ====
section
/-! SUPPORT. One lemma per shared operation that says everything it can do. -/

namespace Sys2Proof.Machine

theorem unwritten_eq_nil_iff (e : Engine) (reads : List DataReg) :
    e.unwritten reads = [] ↔ ∀ r ∈ reads, (e.get r).written = true := by
  simp [Engine.unwritten]

theorem mem_unwritten (e : Engine) (reads : List DataReg) (r : DataReg) :
    r ∈ e.unwritten reads ↔ r ∈ reads ∧ (e.get r).written = false := by
  simp [Engine.unwritten]

theorem undefinedReadOf_names_one_of_many (r q : DataReg) (rs : List DataReg) :
    ∃ p ∈ r :: q :: rs, undefinedReadOf r (q :: rs) = .undefinedRead p := by
  have lt : Config.faultChoice ((r :: q :: rs).map fun p => p.index.toNat) % ((q :: rs).length + 1)
      < (r :: q :: rs).length := by
    simpa using Nat.mod_lt _ (Nat.succ_pos (q :: rs).length)
  have named := List.getElem_mem lt
  rw [← List.getD_eq_getElem _ r lt] at named
  exact ⟨_, named, rfl⟩

/-- The fault of a read names one of the registers that hold no value, whichever it is (R21). -/
theorem undefinedReadOf_names_one (r : DataReg) (rs : List DataReg) :
    ∃ q ∈ r :: rs, undefinedReadOf r rs = .undefinedRead q := by
  cases rs with
  | nil => exact ⟨r, by simp, rfl⟩
  | cons q rs => exact undefinedReadOf_names_one_of_many r q rs

/-- A read that finds a value in every register goes on. -/
theorem afterReads_written (s t : State) (reads : List DataReg)
    (written : ∀ r ∈ reads, (s.engine.get r).written = true) : s.afterReads reads t = .next t := by
  simp [State.afterReads, (unwritten_eq_nil_iff _ _).2 written]

/-- A read that finds no value in some register names one, and stops a strict machine alone. -/
theorem afterReads_unwritten (s t : State) (reads : List DataReg)
    (missing : ∃ r ∈ reads, (s.engine.get r).written = false) :
    ∃ r ∈ reads, (s.engine.get r).written = false ∧
      s.afterReads reads t
        = if s.strict then .fault (.undefinedRead r) else .next (t.recordFault (.undefinedRead r)) := by
  obtain ⟨q, mem, empty⟩ := missing
  unfold State.afterReads
  split
  · rename_i eq
    exact absurd ((unwritten_eq_nil_iff _ _).1 eq q mem) (by simp [empty])
  · rename_i r rs eq
    obtain ⟨r', named, fault⟩ := undefinedReadOf_names_one r rs
    rw [← eq, mem_unwritten] at named
    exact ⟨r', named.1, named.2, by rw [fault]⟩

/-- Everything `afterReads` can do. -/
theorem afterReads_cases (s t : State) (reads : List DataReg) :
    ((∀ r ∈ reads, (s.engine.get r).written = true) ∧ s.afterReads reads t = .next t) ∨
    ∃ r ∈ reads, (s.engine.get r).written = false ∧
      s.afterReads reads t
        = if s.strict then .fault (.undefinedRead r) else .next (t.recordFault (.undefinedRead r)) := by
  by_cases all : ∀ r ∈ reads, (s.engine.get r).written = true
  · exact .inl ⟨all, afterReads_written s t reads all⟩
  · exact .inr (afterReads_unwritten s t reads (by simpa using all))

/-- The state a completion answers where every register read holds a value. -/
theorem complete_eq_afterReads (s : State) (reads : List DataReg) (e : Engine) :
    s.complete reads e = s.afterReads reads (s.completedWith e) := rfl

/-- No read is refused. -/
theorem afterReads_ne_refused (s t : State) (reads : List DataReg) (q : Refusal) :
    s.afterReads reads t ≠ .refused q := by
  unfold State.afterReads
  split
  · simp
  · split <;> simp

/-- A machine that is not strict goes on from every read. -/
theorem afterReads_goes_on (s t : State) (reads : List DataReg) (lenient : s.strict = false) :
    ∃ more, s.afterReads reads t = .next { t with faults := t.faults ++ more } := by
  rcases afterReads_cases s t reads with ⟨-, eq⟩ | ⟨r, -, -, eq⟩
  · exact ⟨[], by simp [eq]⟩
  · exact ⟨[.undefinedRead r], by rw [eq, lenient]; rfl⟩

/-- A strict machine is stopped by the first fault recorded. -/
theorem stopFault_strict (s : State) (strict : s.strict = true) : s.stopFault = s.faults.head? := by
  unfold State.stopFault
  cases eq : s.faults with
  | nil => rfl
  | cons f fs =>
    have : f.stops true = true := by cases f <;> rfl
    simp [strict, this]

/-- No fault recorded, no fault stops. -/
theorem stopFault_of_no_fault {s : State} (eq : s.faults = []) : s.stopFault = none := by
  simp [State.stopFault, eq]

/-- `settle` keeps a next state, turns a fault into the state that records it, and lets a stuck agent's
turn pass; it raises none. -/
theorem settle_eq_next_iff (s t : State) (o : AgentOutcome) :
    s.settle o = .next t ↔
      o = .next t ∨ (∃ f, o = .fault f ∧ t = s.recordFault f) ∨ (o = .stuck ∧ t = s) := by
  cases o <;> simp [State.settle, eq_comm]

theorem settle_ne_fault (s : State) (o : AgentOutcome) (f : Fault) :
    s.settle o ≠ .fault f := by
  cases o <;> simp [State.settle]

@[simp] theorem ofOutcome_eq_next_iff (o : Host.Outcome State Fault Refusal) (t : State) :
    AgentOutcome.ofOutcome o = .next t ↔ o = .next t := by
  cases o <;> simp [AgentOutcome.ofOutcome]

@[simp] theorem ofOutcome_eq_fault_iff (o : Host.Outcome State Fault Refusal) (f : Fault) :
    AgentOutcome.ofOutcome o = .fault f ↔ o = .fault f := by
  cases o <;> simp [AgentOutcome.ofOutcome]

/-- An agent that makes a step is not stuck. -/
@[simp] theorem ofOutcome_ne_stuck (o : Host.Outcome State Fault Refusal) :
    AgentOutcome.ofOutcome o ≠ .stuck := by
  cases o <;> simp [AgentOutcome.ofOutcome]

@[simp] theorem andThen_next (s : State) (k : State → Host.Outcome State Fault Refusal) :
    andThen (.next s) k = k s := rfl

theorem andThen_eq_next_iff (o : Host.Outcome State Fault Refusal)
    (k : State → Host.Outcome State Fault Refusal) (t : State) :
    andThen o k = .next t ↔ ∃ s, o = .next s ∧ k s = .next t := by
  cases o <;> simp [andThen]

/-- Issue rejects an illegal word, rejects ROUND at RCNT = 64, or accepts (R85 to R87). -/
theorem issue_cases (e : Engine) (v : Word) :
    (legal v = false ∧ e.issue v = e.raise .errIllegal) ∨
    (legal v = true ∧ opField v = 0x04 ∧ e.rcnt = 64 ∧ e.issue v = e.raise .errSeq) ∨
    (legal v = true ∧ ¬(opField v = 0x04 ∧ e.rcnt = 64) ∧
      e.issue v = { e with pending := some v, status := statusBusy e.status }) := by
  unfold Engine.issue
  cases legal v
  · simp
  · simp only [Bool.not_true, Bool.false_eq_true, if_false]
    by_cases seq : opField v = 0x04 ∧ e.rcnt = 64
    · rw [if_pos seq]
      exact .inr (.inl ⟨trivial, seq.1, seq.2, rfl⟩)
    · rw [if_neg seq]
      exact .inr (.inr ⟨trivial, seq, rfl⟩)

/-- A port write takes STATUS's bits, raises an error, writes one data register, or issues a command
(R63). -/
theorem portWrite_cases (e : Engine) (a : BitVec 8) (v : Word) :
    (portMap a = .status ∧ e.portWrite a v = e.writeStatus v) ∨
    (portMap a ≠ .status ∧ e.busy = true ∧ e.portWrite a v = e.raise .errBusy) ∨
    (e.busy = false ∧ e.portWrite a v = e.raise .errAddr) ∨
    (e.busy = false ∧ ∃ r, portMap a = .data r ∧ r.hostWritable = true ∧ e.portWrite a v = e.set r v) ∨
    (e.busy = false ∧ portMap a = .cmd ∧ e.portWrite a v = e.issue v) := by
  unfold Engine.portWrite
  by_cases st : portMap a = .status
  · simp [st]
  cases busy : e.busy
  · cases m : portMap a <;> simp_all [Engine.idleWrite]
    rename_i r
    cases r.hostWritable <;> simp
  · simp [st]

end Sys2Proof.Machine
end

