-- ==== Sys2Proof/Laws/Exec.lean ====
section
/-! SUPPORT. What every command does: it reads its registers and completes on the engine alone, or, ROUND out of
its range, it faults; none is refused. -/

namespace Sys2Proof.Machine

/-- Every meaning reads the registers its pseudocode names and is the completion of what its `Execute` leaves of
the engine, but for ROUND with RCNT outside 0..63. -/
theorem exec_cases (i : Instr) (s : State) :
    (∃ e, exec i s = s.complete (commandReads s.engine i) e) ∨
    (i = .round ∧ 64 ≤ s.engine.rcnt.toNat ∧ exec i s = .fault .invariantViolation) := by
  cases i
  case round =>
    by_cases lt : s.engine.rcnt.toNat < 64
    · have word : Fin.ofNat 64 s.engine.rcnt.toNat = ⟨s.engine.rcnt.toNat, lt⟩ := Fin.ext (Nat.mod_eq_of_lt lt)
      rw [commandReads, word]
      exact .inl ⟨_, dif_pos lt⟩
    · exact .inr ⟨rfl, Nat.not_lt.1 lt, dif_neg lt⟩
  case nop => exact .inl ⟨s.engine, rfl⟩
  case init => exact .inl ⟨{ s.engine with h := held Config.initialHash }, rfl⟩
  all_goals exact .inl ⟨_, rfl⟩

/-- A command's next state differs from the state before in the engine, which is completed (R88), and in the
record of an undefined read. -/
theorem exec_next_shape {i : Instr} {s t : State} (run : exec i s = .next t) :
    ∃ e, t = s.completedWith e ∨
      ∃ r, (s.engine.get r).written = false ∧ s.strict = false ∧
        t = (s.completedWith e).recordFault (.undefinedRead r) := by
  rcases exec_cases i s with ⟨e, eq⟩ | ⟨-, -, eq⟩
  · refine ⟨e, ?_⟩
    rw [eq, complete_eq_afterReads] at run
    rcases afterReads_cases s (s.completedWith e) (commandReads s.engine i) with ⟨-, out⟩ | ⟨r, -, empty, out⟩
    · rw [out] at run
      cases run
      exact .inl rfl
    · rw [out] at run
      cases lenient : s.strict <;> rw [lenient] at run <;> cases run
      exact .inr ⟨r, empty, rfl, rfl⟩
  · rw [eq] at run
    cases run

/-- No command is refused. -/
theorem exec_ne_refused (i : Instr) (s : State) (q : Refusal) : exec i s ≠ .refused q := by
  rcases exec_cases i s with ⟨e, eq⟩ | ⟨-, -, eq⟩
  · rw [eq, complete_eq_afterReads]
    exact afterReads_ne_refused _ _ _ _
  · simp [eq]

end Sys2Proof.Machine
end

