-- ==== Sys2Proof/Laws/Host.lean ====
section
/-! SUPPORT. What the host's next access is, line by line of its program (R91): an access, a branch, the end. -/

namespace Sys2Proof.Machine

variable (program : List HostInstr) (last : Word)

/-- Where a line that is a branch goes on: the label where the bit of the last value is 1, else the next line. -/
def branchTo (pos target : Nat) (bit : Fin 32) : Nat := if last.getLsbD bit then target else pos + 1

/-- An access found with some fuel is found with more. -/
theorem nextAccess_more {program : List HostInstr} {last : Word} {r : Access × Nat} :
    ∀ {n m pos : Nat}, n ≤ m → nextAccess program last n pos = some r → nextAccess program last m pos = some r
  | 0, _, _, _, found => by cases found
  | n + 1, 0, _, le, _ => by omega
  | n + 1, m + 1, pos, le, found => by
    unfold nextAccess at found ⊢
    split at found
    · cases found
    · exact found
    · exact nextAccess_more (by omega) found

/-- From `pos` the host makes an access after exactly `n` lines. -/
def FoundAt (n pos : Nat) : Prop :=
  nextAccess program last n pos ≠ none ∧ ∀ m < n, nextAccess program last m pos = none

/-- A position has its access after one number of lines alone. -/
theorem FoundAt.unique {program : List HostInstr} {last : Word} {n m pos : Nat}
    (found : FoundAt program last n pos) (also : FoundAt program last m pos) : n = m := by
  rcases Nat.lt_trichotomy n m with lt | eq | lt
  · exact absurd (also.2 n lt) found.1
  · exact eq
  · exact absurd (found.2 m lt) also.1

/-- Before the last of its lines the host stands on a branch of its program, and one line on has one less to go. -/
theorem FoundAt.prev {program : List HostInstr} {last : Word} {n pos : Nat}
    (found : FoundAt program last (n + 2) pos) : ∃ q, FoundAt program last (n + 1) q := by
  have here := found.1
  unfold nextAccess at here
  split at here
  · exact absurd rfl here
  · rename_i x line
    have := found.2 (n + 1) (by omega)
    simp [nextAccess, line] at this
  · rename_i target bit line
    refine ⟨branchTo last pos target bit, here, fun m lt => ?_⟩
    have := found.2 (m + 1) (by omega)
    simpa only [nextAccess, line, branchTo] using this

/-- A position with an access to come is a line of the program. -/
theorem FoundAt.inProgram {program : List HostInstr} {last : Word} {n pos : Nat}
    (found : FoundAt program last n pos) : pos < program.length := by
  by_contra beyond
  have : program[pos]? = none := List.getElem?_eq_none (by omega)
  cases n with
  | zero => exact found.1 rfl
  | succ n => exact found.1 (by simp [nextAccess, this])

/-- Each smaller number of lines is that of some position. -/
theorem FoundAt.below {program : List HostInstr} {last : Word} {n k pos : Nat}
    (found : FoundAt program last n pos) (pos' : 0 < k) (le : k ≤ n) : ∃ q, FoundAt program last k q := by
  induction n generalizing pos with
  | zero => omega
  | succ n ih =>
    by_cases eq : k = n + 1
    · exact ⟨pos, eq ▸ found⟩
    · obtain ⟨j, rfl⟩ : ∃ j, n = j + 1 := ⟨n - 1, by omega⟩
      obtain ⟨q, next⟩ := found.prev
      exact ih next (by omega)

/-- The lines passed before an access are different lines of the program, so they are at most its length. -/
theorem FoundAt.le_length {program : List HostInstr} {last : Word} {n pos : Nat}
    (found : FoundAt program last n pos) : n ≤ program.length := by
  have each : ∀ i : Fin n, ∃ q, FoundAt program last (i.val + 1) q :=
    fun i => found.below (by omega) (by omega)
  choose q isAt using each
  have differ : Function.Injective fun i => (⟨q i, (isAt i).inProgram⟩ : Fin program.length) := by
    intro i j same
    have eq : q i = q j := congrArg Fin.val same
    exact Fin.ext (Nat.succ.inj ((isAt i).unique (eq ▸ isAt j)))
  simpa using Fintype.card_le_of_injective _ differ

/-- Fuel for the program's length finds every access there is. -/
theorem nextAccess_fuel {n pos : Nat} (enough : program.length ≤ n) :
    nextAccess program last n pos = nextAccess program last program.length pos := by
  cases found : nextAccess program last n pos with
  | none =>
    cases also : nextAccess program last program.length pos with
    | none => rfl
    | some r => exact absurd (found.symm.trans (nextAccess_more enough also)) (by simp)
  | some r =>
    classical
    have some_n : ∃ m, nextAccess program last m pos ≠ none := ⟨n, by simp [found]⟩
    have least : FoundAt program last (Nat.find some_n) pos :=
      ⟨Nat.find_spec some_n, fun m lt => not_not.1 (Nat.find_min some_n lt)⟩
    obtain ⟨q, eq⟩ := Option.ne_none_iff_exists'.1 least.1
    have here := nextAccess_more least.le_length eq
    have there := nextAccess_more (Nat.find_min' some_n (m := n) (by simp [found])) eq
    rw [here, ← there, found]

/-- At a line that is an access, the host makes it. -/
theorem HostAgent.next_access {h : HostAgent} {x : Access} (line : h.program[h.pos]? = some (.access x)) :
    h.next = some (x, h.pos + 1) := by
  simp [HostAgent.next, nextAccess, line]

/-- At the end of its program the host has no access. -/
theorem HostAgent.next_end {h : HostAgent} (line : h.program[h.pos]? = none) : h.next = none := by
  simp [HostAgent.next, nextAccess, line]

/-- At a branch the host's next access is that from where the branch goes. -/
theorem HostAgent.next_branch {h : HostAgent} {target : Nat} {bit : Fin 32}
    (line : h.program[h.pos]? = some (.bnz target bit)) :
    h.next = { h with pos := if h.lastRead.getLsbD bit then target else h.pos + 1 }.next := by
  refine Eq.trans ?_ (nextAccess_fuel h.program h.lastRead (Nat.le_succ _)).symm
  simp [HostAgent.next, nextAccess, line]

end Sys2Proof.Machine
end

