-- ==== Sys2Proof/Laws/PerInstr.lean ====
section
/-! SUPPORT. The statements made per instruction: the word of a well-formed command is legal (R84, R86). -/

namespace Sys2Proof.Laws.LegalEncoding

/-- The word of a well-formed command is legal, and its op field is the command's op code. -/
def Statement (i : Instr) : Prop :=
  i.wellFormed = true → legal (encode i) = true ∧ opField (encode i) = i.opcode

theorem nop : Statement .nop := by unfold Statement; decide
theorem init : Statement .init := by unfold Statement; decide
theorem expand : Statement .expand := by unfold Statement; decide
theorem loadwork : Statement .loadwork := by unfold Statement; decide
theorem round : Statement .round := by unfold Statement; decide
theorem feedfwd : Statement .feedfwd := by unfold Statement; decide
theorem compress : Statement .compress := by unfold Statement; decide
theorem block : Statement .block := by unfold Statement; decide
theorem add : Statement .add := by unfold Statement; decide
theorem and : Statement .and := by unfold Statement; decide
theorem xor : Statement .xor := by unfold Statement; decide
theorem not : Statement .not := by unfold Statement; decide
theorem rotr (n : BitVec 5) : Statement (.rotr n) := by unfold Statement; revert n; decide
theorem shr (n : BitVec 5) : Statement (.shr n) := by unfold Statement; revert n; decide
theorem ch : Statement .ch := by unfold Statement; decide
theorem maj : Statement .maj := by unfold Statement; decide
theorem bsig0 : Statement .bsig0 := by unfold Statement; decide
theorem bsig1 : Statement .bsig1 := by unfold Statement; decide
theorem ssig0 : Statement .ssig0 := by unfold Statement; decide
theorem ssig1 : Statement .ssig1 := by unfold Statement; decide

end Sys2Proof.Laws.LegalEncoding
end

