-- ==== Sys2Proof/Laws/Port.lean ====
section
/-! SUPPORT. The register map read off index by index (R41). -/

namespace Sys2Proof.Machine

/-- An index is the one its number names. -/
theorem index_eq_ofNat {a : BitVec 8} {n : Nat} (eq : a.toNat = n) : a = BitVec.ofNat 8 n := by
  subst eq
  simp

/-- The five register files of the map, each at its base, every entry of them. -/
theorem portMap_files :
    (∀ t : Fin 64, portMap (BitVec.ofNat 8 t.val) = .data (.w t)) ∧
    (∀ i : Fin 8, portMap (BitVec.ofNat 8 (0x40 + i.val)) = .data (.h i)) ∧
    (∀ i : Fin 8, portMap (BitVec.ofNat 8 (0x48 + i.val)) = .data (.work i)) ∧
    (∀ t : Fin 64, portMap (BitVec.ofNat 8 (0x80 + t.val)) = .k t) ∧
    (∀ i : Fin 8, portMap (BitVec.ofNat 8 (0xC0 + i.val)) = .iv i) := by
  decide +kernel

theorem portMap_w {a : BitVec 8} {t : Nat} (lt : t < 64) (eq : a.toNat = t) :
    portMap a = .data (.w ⟨t, lt⟩) :=
  index_eq_ofNat eq ▸ portMap_files.1 ⟨t, lt⟩

theorem portMap_h {a : BitVec 8} {i : Nat} (lt : i < 8) (eq : a.toNat = 0x40 + i) :
    portMap a = .data (.h ⟨i, lt⟩) :=
  index_eq_ofNat eq ▸ portMap_files.2.1 ⟨i, lt⟩

theorem portMap_work {a : BitVec 8} {i : Nat} (lt : i < 8) (eq : a.toNat = 0x48 + i) :
    portMap a = .data (.work ⟨i, lt⟩) :=
  index_eq_ofNat eq ▸ portMap_files.2.2.1 ⟨i, lt⟩

theorem portMap_k {a : BitVec 8} {t : Nat} (lt : t < 64) (eq : a.toNat = 0x80 + t) :
    portMap a = .k ⟨t, lt⟩ :=
  index_eq_ofNat eq ▸ portMap_files.2.2.2.1 ⟨t, lt⟩

theorem portMap_iv {a : BitVec 8} {i : Nat} (lt : i < 8) (eq : a.toNat = 0xC0 + i) :
    portMap a = .iv ⟨i, lt⟩ :=
  index_eq_ofNat eq ▸ portMap_files.2.2.2.2 ⟨i, lt⟩

/-- The reserved indices 0x58 to 0x7F and 0xC8 to 0xFF (R64). -/
theorem portMap_reserved {a : BitVec 8}
    (range : (0x58 ≤ a.toNat ∧ a.toNat ≤ 0x7F) ∨ 0xC8 ≤ a.toNat) : portMap a = .reserved := by
  revert a
  decide +kernel

/-- The one index of STATUS. -/
theorem portMap_eq_status_iff (a : BitVec 8) : portMap a = .status ↔ a = 0x51#8 := by
  revert a
  decide +kernel

/-- The one index of CMD. -/
theorem portMap_eq_cmd_iff (a : BitVec 8) : portMap a = .cmd ↔ a = 0x50#8 := by
  revert a
  decide +kernel

/-- The one index of ID. -/
theorem portMap_eq_id_iff (a : BitVec 8) : portMap a = .id ↔ a = 0x57#8 := by
  revert a
  decide +kernel

/-- A data register's index names that register. -/
theorem portMap_index (r : DataReg) : portMap r.index = .data r := by
  cases r with
  | w t => exact portMap_w t.isLt (by simp [DataReg.index]; omega)
  | h i => exact portMap_h i.isLt (by simp [DataReg.index]; omega)
  | work i => exact portMap_work i.isLt (by simp [DataReg.index]; omega)
  | opx => rfl
  | opy => rfl
  | opz => rfl
  | res => rfl

end Sys2Proof.Machine
end

