-- ==== Sys2Proof/Laws/Schedule.lean ====
section
/-! SUPPORT. The loops of the expansion and of the rounds, step by step. -/

namespace Sys2Proof.Machine

/-- The expansion never writes W[0..15] (R162). -/
theorem expandSteps_block (m : Vector Word 16) (n : Nat) (le : n ≤ 48) (t : Nat) (lt : t < 16) :
    (expandSteps m n le)[t] = m[t] := by
  induction n with
  | zero => exact Vector.getElem_append_left lt
  | succ n ih =>
    simp only [expandSteps]
    rw [Vector.getElem_set_ne _ _ (by omega)]
    exact ih _

/-- A word the loop has written stays as it is (R161: "from final values"). -/
theorem expandSteps_final (m : Vector Word 16) {n k : Nat} (le : n ≤ k) (bound : k ≤ 48) (t : Nat)
    (written : t < n + 16) :
    (expandSteps m k bound)[t] = (expandSteps m n (Nat.le_trans le bound))[t] := by
  induction k with
  | zero =>
    obtain rfl : n = 0 := by omega
    rfl
  | succ k ih =>
    by_cases eq : n = k + 1
    · subst eq
      rfl
    · simp only [expandSteps]
      rw [Vector.getElem_set_ne _ _ (by omega)]
      exact ih (by omega) _

/-- The round after round n - 1 is round n (R173: "in increasing order"). -/
theorem rounds_succ (w : Vector Word 64) (s : Vector Word 8) (n : Nat) (le : n + 1 ≤ 64) :
    rounds w s (n + 1) le
      = roundStep Config.roundConstants[n] w[n] (rounds w s n (Nat.le_of_succ_le le)) := rfl

end Sys2Proof.Machine
end

