-- ==== Sys2Proof/Laws/Step.lean ====
section
/-! SUPPORT. What one step of the machine can do, said once, and what each agent's step is made of. -/

namespace Sys2Proof.Machine

/-- A step of the machine that answers a next state: no fault had stopped it, and the agent whose turn it is
made its step, or raised a fault that now stands recorded, or was stuck and its turn passed. -/
theorem step_cases {s t : State} (run : step s = .next t) :
    s.stopFault = none ∧
    (agentStep s.nextTurn s.afterTurn = .next t ∨
     (∃ f, agentStep s.nextTurn s.afterTurn = .fault f ∧ t = s.afterTurn.recordFault f) ∨
     (agentStep s.nextTurn s.afterTurn = .stuck ∧ t = s.afterTurn)) := by
  unfold step machineStep at run
  split at run
  · cases run
  · rename_i eq
    exact ⟨eq, (settle_eq_next_iff _ _ _).1 run⟩

/-- A step of a state that no fault has stopped is the turn of its agent. -/
theorem step_of_running {s : State} (eq : s.stopFault = none) :
    step s = s.afterTurn.settle (agentStep s.nextTurn s.afterTurn) := by
  simp [step, machineStep, eq]

@[simp] theorem afterTurn_stopFault (s : State) : s.afterTurn.stopFault = s.stopFault := rfl

theorem agentStep_host {s : State} (eq : s.stopFault = none) : agentStep .host s = hostStep s := by
  simp [agentStep, eq]

theorem agentStep_engine {s : State} (eq : s.stopFault = none) : agentStep .engine s = engineStep s := by
  simp [agentStep, eq]

/-- The engine's step on a pending command is that command's meaning. -/
theorem engineStep_of_command {s : State} {v : Word} {i : Instr} (pending : s.engine.pending = some v)
    (reads : decode v = .ok i) : engineStep s = .ofOutcome (exec i s) := by
  simp [engineStep, pending, reads]

/-- The host's step is its next access, made from the position after it. -/
theorem hostStep_of_access {s : State} {x : Access} {pos : Nat} (eq : s.host.next = some (x, pos)) :
    hostStep s = .ofOutcome (hostAccess x (s.hostAt pos)) := by
  simp [hostStep, eq]

end Sys2Proof.Machine
end

