-- ==== Sys2Proof/Tests/Slice0.lean ====
section
/-! SUPPORT. Small tests, each against a vector of spec/95_test_vectors.md or an example of a rule, and the
witnesses that the hypotheses of the statements can be met. -/

-- One declaration at a time: the kernel evaluations below would otherwise each hold a thread.
set_option Elab.async false

namespace Sys2Proof.Tests

open Sys2Proof.Machine

/-! ### Small states -/

/-- The block of "abc" (V2). -/
def abcBlock : Vector Word 16 :=
  #v[0x61626380, 0, 0, 0, 0, 0, 0, 0, 0, 0, 0, 0, 0, 0, 0, 0x18]

/-- Idle, with the operands of V16. -/
def aluState : State :=
  { State.reset with engine := { Engine.reset with
      opx := .of 0x12345678, opy := .of 0x9abcdef0, opz := .of 0xff00ff00 } }

/-- Idle, H = IV, WA..WH = IV, W = the schedule words given, RCNT = 0. -/
def hashState (w : Vector Word 64) : State :=
  { State.reset with engine := { Engine.reset with
      w := held w, h := held Config.initialHash, work := held Config.initialHash, rcnt := 0 } }

/-- The "abc" block in W[0..15] (V2), nothing else written. -/
def abcState : State :=
  { State.reset with engine := { Engine.reset with
      w := Vector.ofFn fun t : Fin 64 =>
        if h : t.val < 16 then .of abcBlock[t.val] else .atReset t } }

/-- The "abc" block and H = IV. -/
def abcInit : State := { abcState with engine := { abcState.engine with h := held Config.initialHash } }

/-- All registers of the W, H and WA..WH files hold 0. -/
def zeroState : State :=
  { State.reset with engine := { Engine.reset with
      w := held (Vector.replicate 64 0), h := held (Vector.replicate 8 0)
      work := held (Vector.replicate 8 0), rcnt := 0 } }

/-- Right after an accepted `WR CMD, BLOCK` (V36). -/
def busyEngine : Engine := Engine.reset.portWrite 0x50 0x00000007

/-- A machine with that engine and a host about to make the access `x`. -/
def atAccess (e : Engine) (x : Access) : State :=
  { State.reset with engine := e, host := { program := [.access x], pos := 0, reads := [] } }

/-- After reset, but not strict (log 26). -/
def lenient : State := { State.reset with strict := false }

/-- What a register holds after a command: its value, if it holds one. -/
def regOf (r : DataReg) (o : Host.Outcome State Fault Refusal) : Option Word :=
  match o with
  | .next t => if (t.engine.get r).written then some (t.engine.get r).value else none
  | .fault _ => none
  | .refused _ => none

/-- The RES a command leaves. -/
def resOf (o : Host.Outcome State Fault Refusal) : Option Word := regOf .res o

/-- The RCNT a command leaves. -/
def rcntOf (o : Host.Outcome State Fault Refusal) : Nat :=
  match o with
  | .next t => t.engine.rcnt.toNat
  | .fault _ => 127
  | .refused _ => 127

/-! ### WellFormed: an ill-formed term is refused -/

theorem test_wellFormed_refuses_rotr_zero : (Instr.rotr 0).wellFormed = false := by decide

theorem test_wellFormed_takes_shr_zero : (Instr.shr 0).wellFormed = true := by decide

/-! ### Decoding: words written out bit by bit, rsv (19 bits), n (5 bits), op (8 bits) (R80, R84) -/

theorem test_decode_control :
    decode 0b0000000000000000000_00000_00000000#32 = .ok .nop ∧
    decode 0b0000000000000000000_00000_00000001#32 = .ok .init := by decide

theorem test_decode_schedule : decode 0b0000000000000000000_00000_00000010#32 = .ok .expand := by decide

theorem test_decode_compress :
    decode 0b0000000000000000000_00000_00000011#32 = .ok .loadwork ∧
    decode 0b0000000000000000000_00000_00000100#32 = .ok .round ∧
    decode 0b0000000000000000000_00000_00000101#32 = .ok .feedfwd ∧
    decode 0b0000000000000000000_00000_00000110#32 = .ok .compress ∧
    decode 0b0000000000000000000_00000_00000111#32 = .ok .block := by decide

theorem test_decode_alu :
    decode 0b0000000000000000000_00000_00010000#32 = .ok .add ∧
    decode 0b0000000000000000000_00000_00010001#32 = .ok .and ∧
    decode 0b0000000000000000000_00000_00010010#32 = .ok .xor ∧
    decode 0b0000000000000000000_00000_00010011#32 = .ok .not ∧
    decode 0b0000000000000000000_00111_00010100#32 = .ok (.rotr 7) ∧
    decode 0b0000000000000000000_00011_00010101#32 = .ok (.shr 3) ∧
    decode 0b0000000000000000000_00000_00010110#32 = .ok .ch ∧
    decode 0b0000000000000000000_00000_00010111#32 = .ok .maj ∧
    decode 0b0000000000000000000_00000_00011000#32 = .ok .bsig0 ∧
    decode 0b0000000000000000000_00000_00011001#32 = .ok .bsig1 ∧
    decode 0b0000000000000000000_00000_00011010#32 = .ok .ssig0 ∧
    decode 0b0000000000000000000_00000_00011011#32 = .ok .ssig1 := by decide

/-- V34: the illegal words, each by the reason it is refused for. -/
theorem test_decode_illegal :
    decode 0x00000014#32 = .error .rotateByZero ∧
    decode 0x00000008#32 = .error .reservedOp ∧ decode 0x000000ff#32 = .error .reservedOp ∧
    decode 0x00000101#32 = .error .amountNotAllowed ∧
    decode 0x00001f04#32 = .error .amountNotAllowed ∧
    decode 0x00002000#32 = .error .reservedBitsSet ∧
    decode 0x80000007#32 = .error .reservedBitsSet := by decide

/-- R114: ROTR 7 = 0x00000714; R115: SHR 3 = 0x00000315. -/
theorem test_encode_amounts :
    encode (.rotr 7) = 0x00000714#32 ∧ encode (.shr 3) = 0x00000315#32 := by decide

/-! ### The ALU commands (V16) -/

theorem test_add : resOf (exec .add aluState) = some 0xacf13568 := by decide +kernel
theorem test_and : resOf (exec .and aluState) = some 0x12345670 := by decide +kernel
theorem test_xor : resOf (exec .xor aluState) = some 0x88888888 := by decide +kernel
theorem test_not : resOf (exec .not aluState) = some 0xedcba987 := by decide +kernel
theorem test_rotr : resOf (exec (.rotr 31) aluState) = some 0x2468acf0 := by decide +kernel
theorem test_shr : resOf (exec (.shr 4) aluState) = some 0x01234567 := by decide +kernel
theorem test_shr_zero : resOf (exec (.shr 0) aluState) = some 0x12345678 := by decide +kernel
theorem test_ch : resOf (exec .ch aluState) = some 0xff34ff70 := by decide +kernel
theorem test_maj : resOf (exec .maj aluState) = some 0x9a34de70 := by decide +kernel
theorem test_bsig0 : resOf (exec .bsig0 aluState) = some 0x66146474 := by decide +kernel
theorem test_bsig1 : resOf (exec .bsig1 aluState) = some 0x3561abda := by decide +kernel
theorem test_ssig0 : resOf (exec .ssig0 aluState) = some 0xe7fce6ee := by decide +kernel
theorem test_ssig1 : resOf (exec .ssig1 aluState) = some 0xa1f78649 := by decide +kernel

/-! ### The hash commands -/

/-- V31. -/
theorem test_init : regOf (.h 7) (exec .init State.reset) = some 0x5be0cd19 := by decide +kernel

/-- R191: NOP changes no register. -/
theorem test_nop : exec .nop State.reset = .next State.reset := rfl

/-- V10: W[20] of the "abc" block. -/
theorem test_expand : regOf (.w 20) (exec .expand abcState) = some 0x3e9d7b78 := by decide +kernel

/-- V23: LOADWORK after INIT. -/
theorem test_loadwork :
    regOf (.work 4) (exec .loadwork abcInit) = some 0x510e527f ∧
    rcntOf (exec .loadwork abcInit) = 0 := by decide +kernel

/-- V11, row 0: a and e after the first round, RCNT = 1. -/
theorem test_round :
    regOf (.work 0) (exec .round (hashState (expand abcBlock))) = some 0x5d6aebcd ∧
    regOf (.work 4) (exec .round (hashState (expand abcBlock))) = some 0xfa2a4622 ∧
    rcntOf (exec .round (hashState (expand abcBlock))) = 1 := by decide +kernel

/-- V25: all registers 0, RCNT = 0: a = e = K[0]. -/
theorem test_round_zero :
    regOf (.work 0) (exec .round zeroState) = some 0x428a2f98 ∧
    regOf (.work 4) (exec .round zeroState) = some 0x428a2f98 ∧
    regOf (.work 1) (exec .round zeroState) = some 0 := by decide +kernel

/-- V26: FEEDFWD straight after LOADWORK gives 2·IV mod 2^32. -/
theorem test_feedfwd :
    regOf (.h 0) (exec .feedfwd (hashState (expand abcBlock))) = some 0xd413ccce := by decide +kernel

/-- V27: COMPRESS of the zero schedule on H = 0. -/
theorem test_compress : regOf (.h 0) (exec .compress zeroState) = some 0x7ca51614 := by decide +kernel

/-- V2: BLOCK on the "abc" block with H = IV. -/
theorem test_block : regOf (.h 7) (exec .block abcInit) = some 0xf20015ad := by decide +kernel

/-! ### The port, STATUS and reset -/

/-- V33: ROUND right after reset; V37: legality first. -/
theorem test_issue_errors :
    (Engine.reset.portWrite 0x50 0x00000004).statusWord = 0x10 ∧
    (Engine.reset.portWrite 0x50 0x00000104).statusWord = 0x02 := by decide

/-- V35: read-only and reserved indices. -/
theorem test_errAddr :
    (Engine.reset.portWrite 0x48 0).statusWord = 0x08 ∧
    (Engine.reset.portWrite 0x4F 0).statusWord = 0x08 ∧
    (Engine.reset.portWrite 0x57 0).statusWord = 0x08 ∧
    (Engine.reset.portWrite 0xC7 0).statusWord = 0x08 ∧
    (Engine.reset.portWrite 0xFF 0).statusWord = 0x08 := by decide

/-- V36: writes while BUSY = 1, ERR_BUSY before ERR_ADDR and ERR_ILLEGAL. -/
theorem test_errBusy :
    (busyEngine.portWrite 0x40 0).statusWord = 0x05 ∧
    (busyEngine.portWrite 0x56 0).statusWord = 0x05 ∧
    (busyEngine.portWrite 0x50 0x14).statusWord = 0x05 := by decide

/-- V38: the write-1-to-clear rule. -/
theorem test_statusClear :
    statusClear 0x1e 0x00000004 = 0x1a ∧ statusClear 0x1a 0x00000001 = 0x1a ∧
    statusClear 0x1a 0xFFFFFFE0 = 0x1a ∧ statusClear 0x1a 0xFFFFFFFF = 0 ∧
    statusClear 0x05 0x0000001E = 0x01 := by decide

/-- V32: reads straight after reset. -/
theorem test_resetReads :
    Engine.reset.portRead 0x51 = .value 0 ∧ Engine.reset.portRead 0x52 = .value 0x40 ∧
    Engine.reset.portRead 0x57 = .value 0x53323536 ∧ Engine.reset.portRead 0xBF = .value 0xc67178f2 ∧
    Engine.reset.portRead 0xC0 = .value 0x6a09e667 ∧ Engine.reset.portRead 0x7F = .value 0 ∧
    Engine.reset.get (.h 0) = .atReset 0x40 ∧ Engine.reset.portRead 0x40 = .data (.h 0) (Config.resetValue 0x40) := by
  refine ⟨?_, ?_, ?_, ?_, ?_, ?_, rfl, rfl⟩ <;> decide +kernel

/-- V39: reads while busy. -/
theorem test_busyReads :
    busyEngine.portRead 0x40 = .draw ∧ busyEngine.portRead 0x80 = .draw ∧
    busyEngine.portRead 0x58 = .draw ∧ busyEngine.portRead 0x51 = .value 1 ∧
    busyEngine.portRead 0x57 = .value 0x53323536 := by decide +kernel

/-- V40: `RD H0` right after reset: the fault is recorded, and it stops. -/
theorem test_readFault :
    step (atAccess Engine.reset (.read 0x40))
      = .next { atAccess Engine.reset (.read 0x40) with faults := [.undefinedRead (.h 0)] } ∧
    step { atAccess Engine.reset (.read 0x40) with faults := [.undefinedRead (.h 0)] }
      = .fault (.undefinedRead (.h 0)) := ⟨rfl, rfl⟩

/-- R247: the same read on a machine that is not strict: recorded, and the host gets the register's bits. -/
theorem test_readGoesOn :
    step { atAccess Engine.reset (.read 0x40) with strict := false }
      = .next { atAccess Engine.reset (.read 0x40) with
          strict := false
          faults := [.undefinedRead (.h 0)]
          host := { program := [.access (.read 0x40)], pos := 1, reads := [Config.resetValue 0x40] } } := rfl

/-- V40: CH with OPZ unwritten faults. -/
theorem test_chFault :
    (match exec .ch { State.reset with engine :=
        { Engine.reset with opx := .of 1, opy := .of 2 } } with
      | .fault (.undefinedRead _) => true
      | _ => false) = true := by decide

/-- V40: LOADWORK with H unwritten faults; on a machine that is not strict, it completes. -/
theorem test_loadworkUnwritten :
    (exec .loadwork State.reset matches .fault _) = true ∧
    rcntOf (exec .loadwork lenient) = 0 := by decide +kernel

/-- V41: reset while busy. -/
theorem test_resetWhileBusy :
    step { State.reset with engine := busyEngine, turns := [.reset] } = .next State.reset := rfl

/-- A command placed by `withFetchWord` is what the next step completes (R85, R88). -/
theorem test_withFetchWord :
    step (State.reset.withFetchWord 32 1) = exec .init (State.reset.withFetchWord 32 1).afterTurn := rfl

theorem test_decodeTableWord :
    decodeTableWord 32 0x714 = some (.rotr 7) ∧ decodeTableWord 32 0x14 = none := by decide

/-- R12, R256: a draw is that of the instance that reads, and the count goes up. -/
theorem test_drawOfInstance :
    step { atAccess busyEngine (.read 0x40) with turns := [.host], unit := 1 }
      = .next { atAccess busyEngine (.read 0x40) with
          unit := 1, draws := 1
          host := { program := [.access (.read 0x40)], pos := 1, reads := [Config.draw 1 0] } } := rfl

/-- From reset, with nothing placed, the machine stays idle (R258, R272). -/
theorem test_idle : step State.reset = .next State.reset := rfl

/-! ### The host's side -/

/-- V17: lengths and block counts. -/
theorem test_padLengths :
    (pad (List.replicate 55 0x61)).length = 64 ∧ (pad (List.replicate 56 0x61)).length = 128 ∧
    blockCount (List.replicate 64 0x61) = 2 := by decide +kernel

/-- V2, V18: the block words of "abc". -/
theorem test_blockWords : messageBlocks [0x61, 0x62, 0x63] = [abcBlock] := by decide +kernel

/-- R92: WAIT and RUN, positions resolved. -/
theorem test_assemble :
    assemble [.clr, .run .init] =
      some [wrLine 0x51 0x1E, wrLine 0x50 1, rdLine 0x51, .bnz 2 0] := by decide +kernel

/-- R192: the program of `Hash` for the empty message, 32 accesses and polls, from CLR to the read of H7. -/
theorem test_hashLines :
    (assemble (hashLines [])).map (fun p => (p.length, p[0]?, p[4]?, p[22]?, p[31]?)) =
      some (32, some (wrLine 0x51 0x1E), some (wrLine 0x00 0x80000000), some (.bnz 21 0),
        some (rdLine 0x47)) := by decide +kernel

/-- The poll of `WAIT` (R92) at its branch, the last value read being `v`; an access follows it. -/
def poll (v : Word) : HostAgent :=
  { program := [rdLine 0x51, .bnz 0 0, rdLine 0x56], pos := 1, reads := [v, 0xFFFFFFFE#32 ^^^ v] }

/-- R91, R92: BUSY read 1, the host polls again; BUSY read 0, whatever the other bits, it goes on. -/
theorem test_poll :
    (poll 0x00000001).next = some (.read 0x51, 1) ∧ (poll 0x0000001E).next = some (.read 0x56, 3) := by decide

/-- R195: high nibble first, lower case. -/
theorem test_hex : hex [0xba, 0x78] = ['b', 'a', '7', '8'] := by decide

/-! ### Witnesses: the hypotheses of the statements can be met -/

/-- `completedWith` is the completion the commands end in. -/
theorem witness_AddAndXorNot :
    (∀ r ∈ [DataReg.opx, .opy], (aluState.engine.get r).written = true) ∧
    (∃ r ∈ [DataReg.opx, .opy], (State.reset.engine.get r).written = false) := by decide +kernel

theorem witness_RotateAndShiftCommands :
    (∀ r ∈ [DataReg.opx], (aluState.engine.get r).written = true) ∧ (31#5 ≠ 0#5) ∧
    Engine.reset.busy = false := by decide +kernel

theorem witness_ChooseAndMajority :
    (∀ r ∈ [DataReg.opx, .opy, .opz], (aluState.engine.get r).written = true) ∧
    (∃ r ∈ [DataReg.opx, .opy, .opz], (State.reset.engine.get r).written = false) := by decide +kernel

theorem witness_SigmaCommands :
    aluState.engine.opx.value = 0x12345678 ∧ aluState.engine.opx.written = true := by decide +kernel

theorem witness_AluTouchesOnlyRes :
    Instr.rotr 31 ∈ aluCommands ∧ ∃ t, exec (.rotr 31) aluState = .next t := by
  exact ⟨by decide, _, rfl⟩

theorem witness_RotateAndShiftBits : 1 ≤ 1 ∧ 1 ≤ 31 ∧ 31 ≤ 31 ∧ 0 < 32 := by decide

theorem witness_SpecWordsDecode : (31#5 ≠ 0#5) := by decide

theorem witness_DecodeEncodeAgree :
    (Instr.rotr 31).wellFormed = true ∧ decode 0x00001f14#32 = .ok (.rotr 31) := by decide

theorem witness_IllegalWordsAndTheirEffect :
    Engine.reset.busy = false ∧ legal 0xffffffff#32 = false ∧ legal 0x00000114#32 = true := by decide

theorem witness_OpcodeRowsDisjoint :
    fixedRow "NOP" 0x00#32 ∈ opcodeTable ∧ (fixedRow "NOP" 0x00#32).selects 0#32 = true := by decide

theorem witness_CommandIssue :
    Engine.reset.busy = false ∧ legal 0x00000007#32 = true ∧ Engine.reset.rcnt = 64#7 ∧
    legal 0x00000014#32 = false ∧ busyEngine.busy = true := by decide

theorem witness_NopOnlyCompletes : Engine.reset.busy = false := by decide

/-- The engine's turn, a command pending: INIT, which completes, and LOADWORK, which faults. -/
theorem witness_StepRunsDecodedCommand :
    (State.reset.withFetchWord 32 1).stopFault = none ∧
    (State.reset.withFetchWord 32 1).nextTurn = .engine ∧
    (State.reset.withFetchWord 32 1).engine.pending = some 1#32 ∧ decode 1#32 = .ok .init ∧
    (∃ t, exec .init { State.reset.withFetchWord 32 1 with
      turns := (State.reset.withFetchWord 32 1).turns.tail } = .next t) ∧
    (∃ f, exec .loadwork State.reset = .fault f) :=
  ⟨rfl, rfl, rfl, by decide, ⟨_, rfl⟩, ⟨_, rfl⟩⟩

/-- The host's turn, with each kind of access and each result of a read. -/
theorem witness_StepMakesHostAccess :
    (atAccess Engine.reset (.read 0x57)).stopFault = none ∧
    (atAccess Engine.reset (.read 0x57)).nextTurn = .host ∧
    (atAccess Engine.reset (.read 0x57)).resetHeld = false ∧
    (atAccess Engine.reset (.read 0x57)).host.next = some (.read 0x57, 1) ∧
    (atAccess Engine.reset (.write 0x50 7)).host.next = some (.write 0x50 7, 1) ∧
    Engine.reset.portRead 0x57 = .value 0x53323536 ∧ busyEngine.portRead 0x40 = .draw ∧
    Engine.reset.portRead 0x56 = .data .res (Config.resetValue 0x56) ∧ Engine.reset.res.written = false ∧
    { atAccess busyEngine (.read 0x40) with turns := [.host] }.nextTurn = .host := by
  refine ⟨rfl, rfl, rfl, rfl, rfl, rfl, rfl, rfl, rfl, rfl⟩

/-- An access line, a branch taken and one not taken, the end, and a last value read. -/
theorem witness_StepMakesHostAccess_next :
    { poll 1 with pos := 2 }.program[2]? = some (.access (.read 0x56)) ∧
    (poll 1).program[(poll 1).pos]? = some (.bnz 0 0) ∧ (poll 1).lastRead.getLsbD 0 = true ∧
    (poll 2).lastRead.getLsbD 0 = false ∧ (poll 1).program.length ≤ 3 ∧
    (poll 1).reads = 1#32 :: [0xFFFFFFFF#32] := by decide

/-- The bus forms: the last index, and an access of two bytes. -/
theorem witness_StepMakesHostAccess_bus :
    (atAccess Engine.reset (.busRead (Config.busBase + 4 * (0xFF#8).toNat) 4)).host.next
      = some (.busRead (Config.busBase + 4 * (0xFF#8).toNat) 4, 1) ∧
    (atAccess Engine.reset (.busWrite (Config.busBase + 4 * (0#8).toNat) 4 7)).host.next
      = some (.busWrite (Config.busBase + 4 * (0#8).toNat) 4 7, 1) ∧
    (atAccess Engine.reset (.busRead Config.busBase 2)).host.next
      = some (.busRead Config.busBase 2, 1) ∧
    ¬((2 : Nat) = 4 ∧ ∃ i : BitVec 8, Config.busBase = Config.busBase + 4 * i.toNat) :=
  ⟨rfl, rfl, rfl, fun h => absurd h.1 (by decide)⟩

theorem witness_NoEngineStepWithoutPending :
    (atAccess busyEngine (.read 0)).stopFault = none ∧ (atAccess busyEngine (.read 0)).engine.pending ≠ none ∧
    { State.reset with turns := [.engine] }.stopFault = none ∧
    { State.reset with turns := [.engine] }.turns.head? = some .engine ∧
    { State.reset with turns := [.engine] }.engine.pending = none := ⟨rfl, by decide, rfl, rfl, rfl⟩

/-- A step; a fault on a strict machine; a fault that stops any machine; one that a machine not strict goes on
from. -/
theorem witness_FaultRecordGrowsAndStops :
    (∃ t, step State.reset = .next t) ∧
    { State.reset with faults := [.undefinedRead .res] }.strict = true ∧
    { State.reset with faults := [.undefinedRead .res] }.faults = .undefinedRead .res :: [] ∧
    .refusedAccess ∈ { State.reset with faults := [.undefinedRead .res, .refusedAccess] }.faults ∧
    lenient.strict = false ∧
    (∀ f ∈ { lenient with faults := [.undefinedRead .res] }.faults, ∃ r, f = .undefinedRead r) := by
  refine ⟨⟨_, rfl⟩, rfl, rfl, by decide, rfl, ?_⟩
  intro f mem
  exact ⟨.res, by simpa using mem⟩

/-- The third outcome: ROUND executed with RCNT = 64. -/
theorem witness_CommandOutcomes :
    64 ≤ State.reset.engine.rcnt.toNat ∧ exec .round State.reset = .fault .invariantViolation :=
  ⟨by decide, rfl⟩

/-- The block words hold values, and where nothing is written one of them holds none. -/
theorem witness_ExpandComputesSchedule :
    (∀ r ∈ blockRegs, (abcState.engine.get r).written = true) ∧
    (∃ r ∈ blockRegs, (State.reset.engine.get r).written = false) := by decide +kernel

theorem witness_ExpandFrameAndIdempotence :
    (∃ t, exec .expand abcState = .next t) ∧
    (∀ r ∈ blockRegs, (abcState.engine.get r).written = true) :=
  ⟨⟨_, afterReads_written _ _ _ witness_ExpandComputesSchedule.1⟩, witness_ExpandComputesSchedule.1⟩

theorem witness_LoadworkCopiesHash :
    (∀ r ∈ hRegs, (abcInit.engine.get r).written = true) ∧
    (∃ r ∈ hRegs, (State.reset.engine.get r).written = false) := by decide +kernel

/-- ROUND at t = 0 and at t = 63 (V25), and with a word missing. -/
theorem witness_RoundComputesStep :
    zeroState.engine.rcnt.toNat = 0 ∧
    zeroState.engine.work.map DataWord.value = #v[0, 0, 0, 0, 0, 0, 0, 0] ∧
    (∀ r ∈ workRegs ++ [.w 0], (zeroState.engine.get r).written = true) ∧
    { zeroState.engine with rcnt := 63 }.rcnt.toNat = 63 ∧
    (∃ r ∈ workRegs ++ [.w 63], (State.reset.engine.get r).written = false) ∧
    Engine.reset.busy = false ∧ Engine.reset.rcnt = 64#7 := by decide +kernel

theorem witness_FeedfwdAddsWork :
    (∀ r ∈ hRegs ++ workRegs, (zeroState.engine.get r).written = true) ∧
    (∃ r ∈ hRegs ++ workRegs, (abcInit.engine.get r).written = false) := by decide +kernel

theorem witness_CompressRunsAllRounds :
    (∀ r ∈ hRegs ++ wRegs, (zeroState.engine.get r).written = true) ∧
    (∃ r ∈ hRegs ++ wRegs, (abcInit.engine.get r).written = false) := by decide +kernel

/-- Both ways to go on: every register holds a value, or the machine is not strict. -/
theorem witness_CompressIsStepwise :
    zeroState.goesOn (hRegs ++ wRegs) ∧ lenient.goesOn (hRegs ++ wRegs) :=
  ⟨.inr (by decide +kernel), .inl rfl⟩

theorem witness_BlockIsExpandThenCompress :
    abcInit.goesOn (blockRegs ++ hRegs) ∧ lenient.goesOn (blockRegs ++ hRegs) ∧
    (∃ r ∈ blockRegs ++ hRegs, (abcState.engine.get r).written = false) :=
  ⟨.inr (by decide +kernel), .inl rfl, by decide +kernel⟩

theorem witness_PureCompressionFunctions :
    zeroState.goesOn (hRegs ++ wRegs) ∧
    abcInit.goesOn (blockRegs ++ hRegs) :=
  ⟨witness_CompressIsStepwise.1, witness_BlockIsExpandThenCompress.1⟩

theorem witness_BlocksChainInOrder :
    abcInit.engine.busy = false ∧ abcInit.goesOn hRegs :=
  ⟨by decide, .inr (by decide +kernel)⟩

/-- Two machines that agree on the block words and on nothing else. -/
theorem witness_HashDependsOnBlockAlone :
    { abcState with strict := false }.goesOn blockRegs ∧ (hashState (expand abcBlock)).goesOn blockRegs ∧
    (∀ t (_ : t < 16), (hashState (expand abcBlock)).engine.w[t].value = abcState.engine.w[t].value) ∧
    abcState.engine.rcnt ≠ (hashState (expand abcBlock)).engine.rcnt := by
  refine ⟨.inl rfl, .inr (by decide +kernel), ?_, by decide⟩
  intro t lt
  simp [hashState, abcState, expand, expandSteps_block, lt]

theorem witness_HashCommandsFrame :
    Instr.init ∈ [Instr.nop, .init, .expand, .loadwork, .round, .feedfwd, .compress, .block] ∧
    ∃ t, exec .init State.reset = .next t := ⟨by decide, _, rfl⟩

theorem witness_CompletionClearsBusyOnly : ∃ t, exec .nop State.reset = .next t := ⟨_, rfl⟩

/-- A boundary index of each clause of the read and the write tables. -/
theorem witness_PortTables :
    (zeroState.engine.portRead 0x00 = .data (.w 0) 0 ∧ zeroState.engine.w[0].written = true) ∧
    busyEngine.busy = true ∧ Engine.reset.busy = false ∧
    (63#8).toNat = 63 ∧ (0x47#8).toNat = 0x40 + 7 ∧ (0x48#8).toNat = 0x48 + 0 ∧
    (0x4F#8).toNat = 0x48 + 7 ∧ (0xBF#8).toNat = 0x80 + 63 ∧ (0xC7#8).toNat = 0xC0 + 7 ∧
    0x58 ≤ (0x58#8).toNat ∧ (0x7F#8).toNat ≤ 0x7F ∧ 0xC8 ≤ (0xC8#8).toNat ∧ 0x56 ≤ (0xFF#8).toNat := by
  decide +kernel

theorem witness_StatusWriteOneToClear : (4 : Nat) < 5 ∧ 1 ≤ 4 ∧ (0x10#32).getLsbD 4 = true := by decide

theorem witness_OneErrorPerWrite : (0xFF#8) ≠ 0x51#8 := by decide

theorem witness_RepeatedWrites :
    Engine.reset.busy = false ∧ (0x47#8).toNat < 0x48 ∧ (Engine.reset.portWrite 0x50 7).busy = true := by
  decide

theorem witness_BusyProtectsCommand :
    { atAccess busyEngine (.write 0 0) with turns := [.host] }.engine.busy = true ∧
    { atAccess busyEngine (.write 0 0) with turns := [.host] }.nextTurn = .host ∧
    ∃ t, step { atAccess busyEngine (.write 0 0) with turns := [.host] } = .next t :=
  ⟨by decide, rfl, _, rfl⟩

theorem witness_BusAccessForm :
    State.reset.resetHeld = false ∧
    ¬((2 : Nat) = 4 ∧ ∃ i : BitVec 8, Config.busBase = Config.busBase + 4 * i.toNat) :=
  ⟨rfl, fun h => absurd h.1 (by decide)⟩

theorem witness_ResetStep :
    { State.reset with engine := busyEngine, turns := [.reset] }.stopFault = none ∧
    { State.reset with engine := busyEngine, turns := [.reset] }.nextTurn = .reset ∧
    { State.reset with faults := [.refusedAccess], turns := [.reset] }.stopFault ≠ none ∧
    { State.reset with faults := [.undefinedRead .res], turns := [.reset] }.faults ≠ [] :=
  ⟨rfl, rfl, by decide, by decide⟩

theorem witness_ResetLeavesHost :
    { State.reset with turns := [.reset] }.stopFault = none ∧
    { State.reset with turns := [.reset] }.nextTurn = .reset := ⟨rfl, rfl⟩

theorem witness_HeldResetRefusesAccess_turns :
    { State.reset with turns := [.holdReset] }.stopFault = none ∧
    { State.reset with turns := [.holdReset] }.nextTurn = .holdReset ∧
    { State.reset with turns := [.releaseReset], resetHeld := true }.stopFault = none ∧
    { State.reset with turns := [.releaseReset], resetHeld := true }.nextTurn = .releaseReset :=
  ⟨rfl, rfl, rfl, rfl⟩

theorem witness_HeldResetRefusesAccess :
    { atAccess Engine.reset (.read 0x51) with resetHeld := true }.stopFault = none ∧
    { atAccess Engine.reset (.read 0x51) with resetHeld := true }.nextTurn = .host ∧
    { atAccess Engine.reset (.read 0x51) with resetHeld := true }.host.next = some (.read 0x51, 1) :=
  ⟨rfl, rfl, rfl⟩

/-- A state with a command pending that meets the invariant, and steps. -/
theorem witness_EveryStepKeepsInvariant :
    { State.reset with engine := busyEngine }.Inv ∧
    ∃ t, step (atAccess Engine.reset (.write 0x50 1)) = .next t := by
  refine ⟨⟨⟨by decide, by decide, ?_⟩, ?_⟩, _, rfl⟩
  · intro v eq
    obtain rfl : v = 0x00000007#32 := by
      have : busyEngine.pending = some 0x00000007#32 := by decide
      exact (Option.some.inj (this.symm.trans eq)).symm
    exact ⟨by decide, by decide⟩
  · intro h
    cases h

theorem witness_InvariantViolationUnreached :
    { State.reset with engine := busyEngine }.Inv ∧
    (step { State.reset with engine := busyEngine } matches .next _) = true :=
  ⟨witness_EveryStepKeepsInvariant.1, by decide +kernel⟩

theorem witness_PendingCommandCompletes :
    { State.reset with engine := busyEngine }.Inv ∧
    { State.reset with engine := busyEngine }.stopFault = none ∧
    { State.reset with engine := busyEngine }.turns = [] ∧ busyEngine.busy = true :=
  ⟨witness_EveryStepKeepsInvariant.1, rfl, rfl, by decide⟩

theorem witness_InstancesShareNothing :
    (0 : Nat) ≠ 1 ∧ [State.reset, State.reset][0]? = some State.reset ∧
    step State.reset = .next State.reset := ⟨by decide, rfl, rfl⟩

theorem witness_LengthFieldBigEndian : 2 ^ 64 - 8 < 2 ^ 64 := by decide

theorem witness_BlocksPartitionPadding : 0 < blockCount [] := by decide +kernel

theorem witness_BlockWordsBigEndian : (List.replicate 64 0x61#8).length = 64 ∧ 15 < 16 := by
  decide +kernel

/-- A text of `n` letters of one byte each has `n` bytes. -/
theorem asciiText_length (n : Nat) :
    ((String.ofList (List.replicate n 'a')).toUTF8.data.toList.map UInt8.toBitVec).length = n := by
  have size : (String.ofList (List.replicate n 'a')).utf8ByteSize = n := by
    rw [String.utf8ByteSize_ofList]
    induction n with
    | zero => rfl
    | succ n ih =>
      rw [List.replicate_succ, String.utf8Len_cons, ih]
      rfl
  rw [List.length_map, Array.length_toList, String.toUTF8]
  exact (String.size_toByteArray (s := String.ofList _)).trans size

/-- A host at the end of its program that has read STATUS = 0 and the words 0 to 7. -/
def hashRead : State :=
  { State.reset with host := { program := [], pos := 0, reads := [7, 6, 5, 4, 3, 2, 1, 0, 0] } }

/-- Bytes too long, a text too long, bytes that are not, and a text that is not; and a host that has read H. -/
theorem witness_HostAcceptance :
    2 ^ 64 ≤ (List.replicate (2 ^ 61) (0#8 : Byte)).length * 8 ∧
    2 ^ 64 ≤ ((String.ofList (List.replicate (2 ^ 61) 'a')).toUTF8.data.toList.map
      UInt8.toBitVec).length * 8 ∧
    ([] : List Byte).length * 8 < 2 ^ 64 ∧
    ("".toUTF8.data.toList.map UInt8.toBitVec).length * 8 < 2 ^ 64 ∧
    hashRead.host.next = none ∧
    hashRead.host.reads = (Vector.ofFn fun i : Fin 8 => BitVec.ofNat 32 i).toList.reverse ++ 0#32 :: [] := by
  refine ⟨?_, ?_, by decide, by decide +kernel, rfl, by decide +kernel⟩
  · rw [List.length_replicate]
    decide
  · rw [asciiText_length]
    decide

theorem witness_HashRendering : 1 < [0xba#8, 0x0f#8].length ∧ '9' ∈ hex [0x9a#8] := by decide

theorem witness_RomContents : (Engine.reset.portWrite 0x80 7).busy = false ∧ (63 < 64) := by decide

/-- Each agent stuck and not, and a faulted state. -/
theorem witness_StuckAgents :
    State.reset.stopFault = none ∧ State.reset.engine.pending = none ∧ State.reset.host.next = none ∧
    agentStep State.reset.nextTurn { State.reset with turns := State.reset.turns.tail } = .stuck ∧
    (atAccess busyEngine (.read 0)).engine.pending ≠ none ∧
    (atAccess busyEngine (.read 0)).host.next ≠ none ∧
    { State.reset with faults := [.refusedAccess] }.stopFault ≠ none ∧
    { State.reset with faults := [.undefinedRead .res] }.faults ≠ [] := by
  refine ⟨rfl, rfl, rfl, rfl, by decide, by decide, by decide, by decide⟩

/-- `RUN LOADWORK` right after reset, and `ROUND` with W[63] and RCNT = 63. -/
theorem witness_StrictUndefinedReadStops :
    (State.reset.withFetchWord 32 3).strict = true ∧ (State.reset.withFetchWord 32 3).faults = [] ∧
    (State.reset.withFetchWord 32 3).nextTurn = .engine ∧
    (State.reset.withFetchWord 32 3).engine.pending = some 3#32 ∧ decode 3#32 = .ok .loadwork ∧
    (∃ r ∈ commandReads (State.reset.withFetchWord 32 3).engine .loadwork,
      ((State.reset.withFetchWord 32 3).engine.get r).written = false) ∧
    { abcInit.engine with rcnt := 63 }.rcnt.toNat < 64 ∧
    (∃ r ∈ commandReads { abcInit.engine with rcnt := 63 } .round,
      (abcInit.engine.get r).written = false) :=
  ⟨rfl, rfl, rfl, rfl, by decide, by decide +kernel, by decide, by decide +kernel⟩

/-- Every register written, and one that is not; ROUND at its last round. -/
theorem witness_UndefinedReadGoesOn :
    lenient.strict = false ∧ { zeroState.engine with rcnt := 63 }.rcnt.toNat < 64 ∧
    (∀ r ∈ commandReads { zeroState.engine with rcnt := 63 } .round, (zeroState.engine.get r).written = true) ∧
    (∃ r ∈ commandReads lenient.engine .add, (lenient.engine.get r).written = false) := by decide +kernel

theorem witness_WrittenRegistersStayWritten :
    (∃ t, step aluState = .next t) ∧ aluState.nextTurn ≠ .reset ∧ aluState.nextTurn ≠ .holdReset ∧
    (aluState.engine.get .opx).written = true := ⟨⟨_, rfl⟩, by decide, by decide, by decide⟩

theorem witness_StrictnessChangesNoCleanRun :
    State.reset.faults = [] ∧
    step State.reset = .next State.reset := ⟨rfl, rfl⟩

end Sys2Proof.Tests
end

section
/-! PROOFS. The stop states and the stuck agents (R13, R44), and what a command does where it finds a register
without a value (R21, R88). -/

namespace Sys2Proof.Machine

/-! ### Stopped machines and stuck agents (R13, R44, R88) -/

/-- No agent steps from a state that a fault has stopped (R13, R44). -/
theorem agentStep_of_stopped {s : State} (t : Turn) (stopped : s.stopFault ≠ none) :
    agentStep t s = .stuck := by
  obtain ⟨f, eq⟩ := Option.ne_none_iff_exists'.1 stopped
  simp [agentStep, eq]

/-- Any recorded fault has stopped a strict machine. -/
theorem stopFault_ne_none_of_strict {s : State} (strict : s.strict = true) (faulted : s.faults ≠ []) :
    s.stopFault ≠ none := by
  rw [stopFault_strict s strict]
  simpa using faulted

/-- The engine has no step exactly without a pending command (R88). -/
theorem engineStep_eq_stuck_iff (s : State) : engineStep s = .stuck ↔ s.engine.pending = none := by
  cases pending : s.engine.pending with
  | none => simp [engineStep, pending]
  | some v => cases reads : decode v <;> simp [engineStep, pending, reads]

/-- The host has no step exactly where its program has no further access (R258, R272). -/
theorem hostStep_eq_stuck_iff (s : State) : hostStep s = .stuck ↔ s.host.next = none := by
  cases next : s.host.next <;> simp [hostStep, next]

/-- The platform always has a step (R270, R273). -/
theorem agentStep_platform {s : State} (running : s.stopFault = none) :
    agentStep .reset s = .next s.platformReset ∧
    agentStep .holdReset s = .next { s.platformReset with resetHeld := true } ∧
    agentStep .releaseReset s = .next { s with resetHeld := false } := by
  simp [agentStep, running]

/-- The turn of a stuck agent passes (log 7). -/
theorem step_of_stuck {s : State} (running : s.stopFault = none)
    (stuck : agentStep s.nextTurn s.afterTurn = .stuck) : step s = .next s.afterTurn := by
  rw [step_of_running running, stuck, State.settle]

/-- Settles O56: the running agents by the lemma of each one's step, the stopped ones by `agentStep_of_stopped`. -/
theorem stuckAgents : Obligations.StuckAgents := by
  refine ⟨fun s running => ?_, fun s t => agentStep_of_stopped t, fun s t strict faulted =>
    agentStep_of_stopped t (stopFault_ne_none_of_strict strict faulted)⟩
  obtain ⟨reset, hold, release⟩ := agentStep_platform running
  rw [agentStep_engine running, agentStep_host running, reset, hold, release]
  exact ⟨engineStep_eq_stuck_iff s, hostStep_eq_stuck_iff s, nofun, nofun, nofun, step_of_stuck running⟩

/-! ### The outcomes of a command (R21, R88) -/

/-- A command on a machine that is not strict completes, but for ROUND with RCNT outside 0..63 (log 26). -/
theorem exec_completes_of_lenient {i : Instr} {s : State} (lenient : s.strict = false)
    (inRange : i = .round → s.engine.rcnt.toNat < 64) : ∃ t, exec i s = .next t := by
  rcases exec_cases i s with ⟨e, eq⟩ | ⟨isRound, ge, -⟩
  · obtain ⟨more, out⟩ := afterReads_goes_on s (s.completedWith e) (commandReads s.engine i) lenient
    exact ⟨_, by rw [eq, complete_eq_afterReads, out]⟩
  · exact absurd (inRange isRound) (Nat.not_lt.2 ge)

/-- A command that finds no value in a register it reads faults as a whole on a strict machine, and names such a
register (R21). -/
theorem exec_faults_of_unwritten {i : Instr} {s : State} (strict : s.strict = true)
    (inRange : i = .round → s.engine.rcnt.toNat < 64)
    (missing : ∃ r ∈ commandReads s.engine i, (s.engine.get r).written = false) :
    ∃ r ∈ commandReads s.engine i, (s.engine.get r).written = false ∧
      exec i s = .fault (.undefinedRead r) := by
  rcases exec_cases i s with ⟨e, eq⟩ | ⟨isRound, ge, -⟩
  · obtain ⟨r, mem, empty, out⟩ := afterReads_unwritten s (s.completedWith e) _ missing
    exact ⟨r, mem, empty, by rw [eq, complete_eq_afterReads, out, if_pos strict]⟩
  · exact absurd (inRange isRound) (Nat.not_lt.2 ge)

/-- Settles O10, by the two shapes of a meaning (`exec_cases`): a completion, whose reads all find a value or do
not, and ROUND outside 0..63. -/
theorem commandOutcomes : Obligations.CommandOutcomes := by
  refine fun i s => ⟨?_, exec_completes_of_lenient⟩
  rcases exec_cases i s with ⟨e, eq⟩ | outOfRange
  · rw [eq, complete_eq_afterReads]
    rcases afterReads_cases s (s.completedWith e) (commandReads s.engine i) with ⟨-, out⟩ | ⟨r, -, empty, out⟩
    · exact .inl ⟨_, out⟩
    · cases strict : s.strict <;> rw [strict] at out
      · exact .inl ⟨_, out⟩
      · exact .inr (.inl ⟨rfl, r, empty, out⟩)
  · exact .inr (.inr outOfRange)

/-- The engine's turn is the meaning of the pending command, after the turn is taken off the order (R88). -/
theorem step_of_command {s : State} {v : Word} {i : Instr} (running : s.stopFault = none)
    (turn : s.nextTurn = .engine) (pending : s.engine.pending = some v) (reads : decode v = .ok i) :
    step s = s.afterTurn.settle (.ofOutcome (exec i s.afterTurn)) := by
  rw [step_of_running running, turn, agentStep_engine (s := s.afterTurn) running,
    engineStep_of_command (s := s.afterTurn) pending reads]

/-- Settles O57: the command faults by `exec_faults_of_unwritten`, the step records it, and a strict machine with
a fault recorded is stopped. -/
theorem strictUndefinedReadStops : Obligations.StrictUndefinedReadStops := by
  intro s v i strict clean turn pending reads inRange missing
  obtain ⟨r, mem, empty, fault⟩ := exec_faults_of_unwritten (s := s.afterTurn) strict inRange missing
  have stepped : step s = .next (s.afterTurn.recordFault (.undefinedRead r)) := by
    rw [step_of_command (stopFault_of_no_fault clean) turn pending reads, fault, AgentOutcome.ofOutcome,
      State.settle]
  have recorded : s.afterTurn.recordFault (.undefinedRead r)
      = { s with turns := s.turns.tail, faults := [.undefinedRead r] } := by
    simp [State.recordFault, State.afterTurn, clean]
  exact ⟨r, mem, empty, fault, recorded ▸ stepped, fun a =>
    agentStep_of_stopped a (stopFault_ne_none_of_strict strict (List.cons_ne_nil _ _))⟩

end Sys2Proof.Machine
end

section
/-! PROOFS. The padded message (R141 to R148): its length field, its zero bytes, its blocks. -/

namespace Sys2Proof.Machine

/-! ### The length field (R11, R143) -/

/-- Folding in one more byte of `n`, from the top, shifts the number read so far by a byte. -/
theorem div_pow_mul_add_byte (n k : Nat) :
    n / 2 ^ (8 * (k + 1)) * 256 + (BitVec.ofNat 8 (n / 2 ^ (8 * k))).toNat = n / 2 ^ (8 * k) := by
  rw [Nat.mul_succ 8 k, Nat.pow_add, ← Nat.div_div_eq_div_mul, BitVec.toNat_ofNat,
    Nat.mul_comm (_ / _)]
  exact Nat.div_add_mod _ _

/-- The first `k` bytes of the length field are the bits of `n` above the other `8 - k` bytes. -/
theorem be64_firstBytes_value {n : Nat} (lt : n < 2 ^ 64) {k : Nat} (le : k ≤ 8) :
    ((List.range k).map fun j => BitVec.ofNat 8 (n / 2 ^ (8 * (7 - j)))).foldl
      (fun acc b => acc * 256 + b.toNat) 0 = n / 2 ^ (8 * (8 - k)) := by
  induction k with
  | zero => exact (Nat.div_eq_of_lt lt).symm
  | succ k ih =>
    rw [List.range_succ, List.map_append, List.foldl_append, ih (by omega),
      show 8 - k = 7 - k + 1 by omega, show 8 - (k + 1) = 7 - k by omega]
    exact div_pow_mul_add_byte n (7 - k)

@[simp] theorem be64_length (n : Nat) : (be64 n).length = 8 := by simp [be64]

/-- Settles O49: all eight bytes of the length field are read. -/
theorem lengthFieldBigEndian : Obligations.LengthFieldBigEndian := by
  intro n lt
  have value := be64_firstBytes_value lt (Nat.le_refl 8)
  exact ⟨be64_length n, by simpa [be64] using value⟩

/-! ### The zero bytes (R142, R144) -/

/-- The padding loop appends the fewest zero bytes that leave 8 bytes to the end of a block. -/
theorem padZeros_eq_append_replicate {fuel z : Nat} {p : List Byte} (enough : z ≤ fuel) (fewest : z < 64)
    (fills : (p.length + z + 8) % 64 = 0) : padZeros fuel p = p ++ List.replicate z 0#8 := by
  induction fuel generalizing z p with
  | zero =>
    obtain rfl : z = 0 := by omega
    simp [padZeros]
  | succ fuel ih =>
    cases z with
    | zero =>
      have done : (p.length * 8 + 64) % 512 = 0 := by omega
      simp [padZeros, done]
    | succ z =>
      have more : (p.length * 8 + 64) % 512 ≠ 0 := by omega
      have rest := ih (z := z) (p := p ++ [0#8]) (by omega) (by omega) (by simp; omega)
      rw [padZeros, if_pos more, rest, List.replicate_succ, List.append_assoc, List.singleton_append]

/-- `Pad(m)`: m, the byte 0x80, the zero bytes and the length field (R141 to R144). -/
theorem pad_eq (m : List Byte) {z : Nat} (fewest : z < 64) (fills : (m.length + 9 + z) % 64 = 0) :
    pad m = m ++ [0x80#8] ++ List.replicate z 0#8 ++ be64 (m.length * 8) := by
  rw [pad, padZeros_eq_append_replicate (by omega : z ≤ 64) fewest (by simp; omega)]

/-- A padded message fills its blocks (R144). -/
theorem pad_length_mod (m : List Byte) : (pad m).length % 64 = 0 := by
  have fills : (m.length + 9 + (119 - m.length % 64) % 64) % 64 = 0 := by omega
  rw [pad_eq m (Nat.mod_lt _ (by decide)) fills]
  simp
  omega

/-! ### The blocks (R145, R148) -/

theorem blockCount_mul (m : List Byte) : 64 * blockCount m = (pad m).length :=
  Nat.mul_div_cancel' (Nat.dvd_of_mod_eq_zero (pad_length_mod m))

theorem blockBytes_length {m : List Byte} {j : Nat} (lt : j < blockCount m) : (blockBytes m j).length = 64 := by
  have := blockCount_mul m
  rw [blockBytes, List.length_take, List.length_drop]
  omega

/-- The first `n` blocks in order are the first `64 n` bytes of the padded message. -/
theorem blocks_flatten (m : List Byte) (n : Nat) :
    ((List.range n).map (blockBytes m)).flatten = (pad m).take (64 * n) := by
  induction n with
  | zero => rfl
  | succ n ih => simp [List.range_succ, ih, blockBytes, Nat.mul_succ, List.take_add]

/-- Settles O50: every block lies inside the padded message, and all of them are the whole of it. -/
theorem blocksPartitionPadding : Obligations.BlocksPartitionPadding := by
  refine fun m => ⟨fun j => blockBytes_length, ?_⟩
  rw [blocks_flatten, blockCount_mul, List.take_length]

end Sys2Proof.Machine
end

section
/-! PROOFS. The host's procedure `Hash` (R92, R140, R192, R198): its program assembled line by line, and the
result of its run. -/

namespace Sys2Proof.Machine

/-! ### Assembly (R91, R92) -/

/-- The program lines that assembly lines take. -/
def totalSize (lines : List AsmLine) : Nat := (lines.map AsmLine.size).sum

/-- Lines one after another are assembled one after another, the later ones from where the earlier ones end. -/
theorem assembleFrom_append {whole ls ks : List AsmLine} {pos : Nat} {a b : List HostInstr}
    (first : assembleFrom whole pos ls = some a) (second : assembleFrom whole (pos + totalSize ls) ks = some b) :
    assembleFrom whole pos (ls ++ ks) = some (a ++ b) := by
  induction ls generalizing pos a with
  | nil =>
    cases first
    exact second
  | cons l ls ih =>
    obtain ⟨here, expands, rest, assembles, eq⟩ : ∃ here, l.expandAt whole pos = some here ∧
        ∃ rest, assembleFrom whole (pos + l.size) ls = some rest ∧ here ++ rest = a := by
      simpa [assembleFrom, Option.bind_eq_some_iff] using first
    have later := ih assembles (by simpa [totalSize, Nat.add_assoc] using second)
    simp [assembleFrom, expands, later, ← eq]

/-- One block's lines at position `pos` (R192): the 16 words to W[0..15], BLOCK to CMD, the poll of BUSY. -/
def blockCode (pos : Nat) (m : Vector Word 16) : List HostInstr :=
  (List.ofFn fun t : Fin 16 => HostInstr.access (.write (BitVec.ofNat 8 t) m[t])) ++
    [.access (.write 0x50 0x00000007#32), .access (.read 0x51), .bnz (pos + 17) 0]

theorem assembleFrom_blockLines (whole : List AsmLine) (pos : Nat) (m : Vector Word 16) :
    assembleFrom whole pos (blockLines m) = some (blockCode pos m) := by
  have word : encode .block = 0x00000007#32 := by decide
  simp only [blockLines, assembleFrom, AsmLine.expandAt, word, waitLines, blockCode, List.ofFn_eq_map]
  rfl

theorem totalSize_append (ls ks : List AsmLine) : totalSize (ls ++ ks) = totalSize ls + totalSize ks := by
  simp [totalSize]

theorem totalSize_blockLines (m : Vector Word 16) : totalSize (blockLines m) = 19 := rfl

/-- The lines of the first `n` of the blocks `words` (R192). -/
def blocksLines (words : Nat → Vector Word 16) (n : Nat) : List AsmLine :=
  ((List.range n).map fun j => blockLines (words j)).flatten

/-- The program lines of the first `n` of the blocks `words`, from position `pos`, 19 to a block. -/
def blocksCode (pos : Nat) (words : Nat → Vector Word 16) (n : Nat) : List HostInstr :=
  ((List.range n).map fun j => blockCode (pos + 19 * j) (words j)).flatten

theorem blocksLines_succ (words : Nat → Vector Word 16) (n : Nat) :
    blocksLines words (n + 1) = blocksLines words n ++ blockLines (words n) := by
  simp [blocksLines, List.range_succ]

theorem blocksCode_succ (pos : Nat) (words : Nat → Vector Word 16) (n : Nat) :
    blocksCode pos words (n + 1) = blocksCode pos words n ++ blockCode (pos + 19 * n) (words n) := by
  simp [blocksCode, List.range_succ]

theorem totalSize_blocksLines (words : Nat → Vector Word 16) (n : Nat) :
    totalSize (blocksLines words n) = 19 * n := by
  induction n with
  | zero => rfl
  | succ n ih => rw [blocksLines_succ, totalSize_append, ih, totalSize_blockLines, Nat.mul_succ]

theorem assembleFrom_blocksLines (whole : List AsmLine) (pos : Nat) (words : Nat → Vector Word 16) (n : Nat) :
    assembleFrom whole pos (blocksLines words n) = some (blocksCode pos words n) := by
  induction n with
  | zero => rfl
  | succ n ih =>
    rw [blocksLines_succ, blocksCode_succ]
    refine assembleFrom_append ih ?_
    rw [totalSize_blocksLines]
    exact assembleFrom_blockLines whole (pos + 19 * n) (words n)

/-! ### The program of `Hash` (R192) -/

/-- The words of block `j` of the padded message. -/
def wordsOfBlock (m : List Byte) (j : Nat) : Vector Word 16 := blockWords (blockBytes m j)

theorem hashLines_eq (m : List Byte) :
    hashLines m = [.clr, .run .init] ++ blocksLines (wordsOfBlock m) (blockCount m) ++ [.rd 0x51, .rdh] := by
  simp only [hashLines, messageBlocks, blocksLines, wordsOfBlock, List.map_map]
  rfl

/-- The first lines of `Hash` clear the error bits and run INIT. -/
theorem assembleFrom_hashStart (whole : List AsmLine) :
    assembleFrom whole 0 [.clr, .run .init] = some
      [.access (.write 0x51 0x0000001E#32), .access (.write 0x50 0x00000001#32), .access (.read 0x51),
        .bnz 2 0] := by
  have word : encode .init = 0x00000001#32 := by decide
  simp only [assembleFrom, AsmLine.expandAt, word, waitLines]
  rfl

/-- The last lines of `Hash` read STATUS and H0 to H7. -/
theorem assembleFrom_hashEnd (whole : List AsmLine) (pos : Nat) :
    assembleFrom whole pos [.rd 0x51, .rdh] = some (.access (.read 0x51) ::
      (List.range 8).map fun i => .access (.read (BitVec.ofNat 8 (0x40 + i)))) := rfl

theorem assemble_hashLines (m : List Byte) :
    assemble (hashLines m) = some (
      [.access (.write 0x51 0x0000001E#32), .access (.write 0x50 0x00000001#32), .access (.read 0x51),
        .bnz 2 0] ++
      blocksCode 4 (wordsOfBlock m) (blockCount m) ++
      .access (.read 0x51) :: (List.range 8).map fun i => .access (.read (BitVec.ofNat 8 (0x40 + i)))) := by
  rw [assemble, hashLines_eq]
  exact assembleFrom_append
    (assembleFrom_append (assembleFrom_hashStart _) (assembleFrom_blocksLines _ _ _ _)) (assembleFrom_hashEnd _ _)

/-- After the four lines of the start, the poll of BUSY in block `j` stands on line 21 + 19 j. -/
theorem blockCode_hash (m : List Byte) (j : Nat) :
    blockCode (4 + 19 * j) (wordsOfBlock m j) =
      (List.ofFn fun t : Fin 16 =>
        HostInstr.access (.write (BitVec.ofNat 8 t) (blockWords (blockBytes m j))[t])) ++
      [.access (.write 0x50 0x00000007#32), .access (.read 0x51), .bnz (21 + 19 * j) 0] := by
  rw [blockCode, wordsOfBlock, Nat.add_right_comm 4]

/-! ### Which inputs get a program (R6, R140) -/

theorem hashProgram_of_fits {input : HostInput} {m : List Byte} (bytes : canonical input = .ok m)
    (fits : m.length * 8 < 2 ^ 64) : hashProgram input = .ok (hashLines m) := by
  rw [hashProgram, bytes]
  exact if_pos fits

theorem hashProgram_of_tooLong {input : HostInput} {m : List Byte} (bytes : canonical input = .ok m)
    (tooLong : 2 ^ 64 ≤ m.length * 8) : hashProgram input = .error .messageTooLong := by
  rw [hashProgram, bytes]
  exact if_neg (Nat.not_lt.2 tooLong)

/-! ### The result of the run (R198) -/

theorem vector8_eq (h : Vector Word 8) : #v[h[0], h[1], h[2], h[3], h[4], h[5], h[6], h[7]] = h := by
  ext i lt
  interval_cases i <;> rfl

theorem reverse_toList_eq (h : Vector Word 8) :
    h.toList.reverse = [h[7], h[6], h[5], h[4], h[3], h[2], h[1], h[0]] := by
  conv_lhs => rw [← vector8_eq h]
  rfl

theorem hashResult_eq {s : State} {h : Vector Word 8} {status : Word} {before : List Word}
    (done : s.host.next = none) (reads : s.host.reads = h.toList.reverse ++ status :: before) :
    s.hashResult = if s.faults = [] ∧ s.engine.pending = none ∧ status = 0#32 then some (hex (digest h))
      else none := by
  rw [reverse_toList_eq] at reads
  by_cases clean : s.faults = [] ∧ s.engine.pending = none
  · simp [State.hashResult, State.hostDone, done, reads, clean, vector8_eq]
  · rw [if_neg fun ⟨noFault, idle, _⟩ => clean ⟨noFault, idle⟩]
    exact if_neg fun ⟨_, noFault, idle⟩ => clean ⟨noFault, idle⟩

/-- Settles O54: the program is assembled part by part (`assemble_hashLines`), and the other clauses are the cases
of `hashProgram` and of `hashResult`. -/
theorem hostAcceptance : Obligations.HostAcceptance := by
  refine ⟨rfl, fun _ => rfl, fun _ => hashProgram_of_fits rfl, fun _ => hashProgram_of_tooLong rfl,
    fun _ => hashProgram_of_tooLong rfl, fun _ => hashProgram_of_fits rfl, fun m _ => ?_,
    fun _ _ _ _ => hashResult_eq⟩
  simpa only [blocksCode, blockCode_hash] using assemble_hashLines m

end Sys2Proof.Machine
end

section
/-! PROOFS. What every command leaves of the engine (R88), said once as a function of the engine, and what follows of
it: the frame, the completion, the bits and the values of the registers. -/

namespace Sys2Proof.Machine

/-! ### What `Execute` leaves of the engine (R88) -/

/-- The engine that `Execute` of the command `i` leaves of the engine `e`, PENDING and STATUS not yet cleared
(R88; R110 to R121, R160, R170 to R174, R190, R191). -/
def Engine.executed (e : Engine) (i : Instr) : Engine :=
  match i with
  | .nop => e
  | .init => { e with h := held Config.initialHash }
  | .expand => { e with w := expandedFile e.w (expand (blockPart e.w)) }
  | .loadwork => { e with work := held (valuesOf e.h), rcnt := 0 }
  | .round =>
    { e with
      work := held (roundStep Config.roundConstants[Fin.ofNat 64 e.rcnt.toNat]
        e.w[Fin.ofNat 64 e.rcnt.toNat].value (valuesOf e.work))
      rcnt := e.rcnt + 1 }
  | .feedfwd => { e with h := held (feedForward (valuesOf e.h) (valuesOf e.work)) }
  | .compress => e.compressed (valuesOf e.w) (valuesOf e.h)
  | .block =>
    { e with w := expandedFile e.w (expand (blockPart e.w)) }.compressed (expand (blockPart e.w)) (valuesOf e.h)
  | .add => { e with res := .of (add32 e.opx.value e.opy.value) }
  | .and => { e with res := .of (e.opx.value &&& e.opy.value) }
  | .xor => { e with res := .of (e.opx.value ^^^ e.opy.value) }
  | .not => { e with res := .of (not32 e.opx.value) }
  | .rotr n => { e with res := .of (rotr32 e.opx.value (amountOf n)) }
  | .shr n => { e with res := .of (shr32 e.opx.value (amountOf n)) }
  | .ch => { e with res := .of (ch e.opx.value e.opy.value e.opz.value) }
  | .maj => { e with res := .of (maj e.opx.value e.opy.value e.opz.value) }
  | .bsig0 => { e with res := .of (bsig0 e.opx.value) }
  | .bsig1 => { e with res := .of (bsig1 e.opx.value) }
  | .ssig0 => { e with res := .of (ssig0 e.opx.value) }
  | .ssig1 => { e with res := .of (ssig1 e.opx.value) }

theorem fin64_ofNat {n : Nat} (lt : n < 64) : Fin.ofNat 64 n = ⟨n, lt⟩ := Fin.ext (Nat.mod_eq_of_lt lt)

theorem fin8_ofNat {n : Nat} (lt : n < 8) : Fin.ofNat 8 n = ⟨n, lt⟩ := Fin.ext (Nat.mod_eq_of_lt lt)

/-- `Engine.executed` is what the machine executes: every meaning, ROUND in its range, is its completion. -/
theorem exec_eq_complete {i : Instr} {s : State} (inRange : i = .round → s.engine.rcnt.toNat < 64) :
    exec i s = s.complete (commandReads s.engine i) (s.engine.executed i) := by
  cases i with
  | round =>
    have lt := inRange rfl
    simp only [commandReads, Engine.executed, fin64_ofNat lt]
    exact dif_pos lt
  | _ => rfl

/-- Everything a read that goes on can lead to. -/
theorem afterReads_next {s t u : State} {reads : List DataReg} (run : s.afterReads reads t = .next u) :
    ((∀ r ∈ reads, (s.engine.get r).written = true) ∧ u = t) ∨
    ∃ r ∈ reads, (s.engine.get r).written = false ∧ s.strict = false ∧ u = t.recordFault (.undefinedRead r) := by
  rcases afterReads_cases s t reads with ⟨all, out⟩ | ⟨r, mem, empty, out⟩
  · rw [out] at run
    cases run
    exact .inl ⟨all, rfl⟩
  · rw [out] at run
    cases lenient : s.strict <;> rw [lenient] at run <;> cases run
    exact .inr ⟨r, mem, empty, rfl, rfl⟩

/-- Everything a command that completes can lead to. -/
theorem exec_next {i : Instr} {s t : State} (run : exec i s = .next t) :
    (i = .round → s.engine.rcnt.toNat < 64) ∧
    (((∀ r ∈ commandReads s.engine i, (s.engine.get r).written = true) ∧
        t = s.completedWith (s.engine.executed i)) ∨
      ∃ r ∈ commandReads s.engine i, (s.engine.get r).written = false ∧ s.strict = false ∧
        t = (s.completedWith (s.engine.executed i)).recordFault (.undefinedRead r)) := by
  have inRange : i = .round → s.engine.rcnt.toNat < 64 := by
    rintro rfl
    by_contra ge
    have fault : exec .round s = .fault .invariantViolation := dif_neg ge
    rw [fault] at run
    cases run
  rw [exec_eq_complete inRange, complete_eq_afterReads] at run
  exact ⟨inRange, afterReads_next run⟩

/-- A command that completes leaves its `Execute`'s engine, finished. -/
theorem exec_next_engine {i : Instr} {s t : State} (run : exec i s = .next t) :
    t.engine = (s.engine.executed i).finish := by
  obtain ⟨-, ⟨-, rfl⟩ | ⟨r, -, -, -, rfl⟩⟩ := exec_next run <;> rfl

/-- Outside the engine a command that completes writes only the record of an undefined read. -/
theorem exec_next_frame {i : Instr} {s t : State} (run : exec i s = .next t) :
    t.host = s.host ∧ t.turns = s.turns ∧ t.resetHeld = s.resetHeld ∧ t.draws = s.draws ∧ t.unit = s.unit ∧
    t.strict = s.strict ∧
    (t.faults = s.faults ∨
      ∃ r, (s.engine.get r).written = false ∧ t.faults = s.faults ++ [.undefinedRead r]) := by
  obtain ⟨-, ⟨-, rfl⟩ | ⟨r, -, empty, -, rfl⟩⟩ := exec_next run
  · exact ⟨rfl, rfl, rfl, rfl, rfl, rfl, .inl rfl⟩
  · exact ⟨rfl, rfl, rfl, rfl, rfl, rfl, .inr ⟨r, empty, rfl⟩⟩

/-! ### What `Execute` writes, register by register -/

@[simp] theorem executed_status (e : Engine) (i : Instr) : (e.executed i).status = e.status := by
  cases i <;> simp only [Engine.executed, Engine.compressed_status]

/-- No command writes OPX, OPY or OPZ (R27). -/
theorem executed_operands (e : Engine) (i : Instr) :
    (e.executed i).opx = e.opx ∧ (e.executed i).opy = e.opy ∧ (e.executed i).opz = e.opz := by
  cases i <;> simp [Engine.executed]

/-! A register file or RES is kept, or written as a whole; EXPAND and BLOCK write W[16..63] alone. -/

theorem executed_res (e : Engine) (i : Instr) :
    (e.executed i).res = e.res ∨ ∃ v, (e.executed i).res = .of v := by
  cases i with
  | nop | init | expand | loadwork | round | feedfwd | compress | block => exact .inl (by simp [Engine.executed])
  | _ => exact .inr ⟨_, rfl⟩

theorem executed_w (e : Engine) (i : Instr) :
    (e.executed i).w = e.w ∨ ∃ u, (e.executed i).w = expandedFile e.w u := by
  cases i with
  | expand | block => exact .inr ⟨_, rfl⟩
  | _ => exact .inl rfl

theorem executed_h (e : Engine) (i : Instr) : (e.executed i).h = e.h ∨ ∃ v, (e.executed i).h = held v := by
  cases i with
  | init | feedfwd | compress | block => exact .inr ⟨_, rfl⟩
  | _ => exact .inl (by simp [Engine.executed])

theorem executed_work (e : Engine) (i : Instr) :
    (e.executed i).work = e.work ∨ ∃ v, (e.executed i).work = held v := by
  cases i with
  | loadwork | round | compress | block => exact .inr ⟨_, rfl⟩
  | _ => exact .inl (by simp [Engine.executed])

/-- RCNT stays in 0..64 (R32). -/
theorem executed_rcnt_le {e : Engine} {i : Instr} (le : e.rcnt.toNat ≤ 64)
    (inRange : i = .round → e.rcnt.toNat < 64) : (e.executed i).rcnt.toNat ≤ 64 := by
  cases i with
  | round =>
    have lt := inRange rfl
    have next : (e.executed .round).rcnt = e.rcnt + 1 := rfl
    rw [next]
    bv_omega
  | _ => simp [Engine.executed, le]

/-- A file that is kept, or written as a whole, loses no value. -/
theorem getElem_written {n : Nat} {old new : Vector DataWord n} (keptOrWritten : new = old ∨ ∃ v, new = held v)
    (k : Fin n) (written : old[k].written = true) : new[k].written = true := by
  obtain rfl | ⟨v, rfl⟩ := keptOrWritten
  · exact written
  · simp

/-- No command takes a register's value (R21). -/
theorem executed_written {e : Engine} (i : Instr) {r : DataReg} (written : (e.get r).written = true) :
    ((e.executed i).get r).written = true := by
  obtain ⟨opx, opy, opz⟩ := executed_operands e i
  cases r with
  | w t =>
    obtain eq | ⟨u, eq⟩ := executed_w e i
    · simpa [Engine.get, eq] using written
    · by_cases lt : t.val < 16
      · simpa [Engine.get, eq, expandedFile_block, lt] using written
      · simp [Engine.get, eq, expandedFile_rest, Nat.not_lt.1 lt]
  | h k => exact getElem_written (executed_h e i) k written
  | work k => exact getElem_written (executed_work e i) k written
  | opx => simpa [Engine.get, opx] using written
  | opy => simpa [Engine.get, opy] using written
  | opz => simpa [Engine.get, opz] using written
  | res =>
    obtain eq | ⟨v, eq⟩ := executed_res e i
    · simpa [Engine.get, eq] using written
    · simp [Engine.get, eq]

/-- Settles O31: every completion is a `finish`, which clears PENDING and BUSY and no error bit, of an `Execute`,
which leaves STATUS. -/
theorem completionClearsBusyOnly : Obligations.CompletionClearsBusyOnly := by
  intro i s t run
  rw [exec_next_engine run]
  exact ⟨rfl, Engine.finish_busy _, fun b => (Engine.finish_error _ b).trans (by simp [Engine.error])⟩

/-! ### The hash and control commands (R22 to R32) -/

theorem executed_w_of_noExpand {i : Instr} (e : Engine) (notExpand : i ≠ .expand) (notBlock : i ≠ .block) :
    (e.executed i).w = e.w := by
  cases i with
  | expand | block => contradiction
  | _ => rfl

theorem executed_h_of_noWriter {i : Instr} (e : Engine) (notInit : i ≠ .init) (notFeedfwd : i ≠ .feedfwd)
    (notCompress : i ≠ .compress) (notBlock : i ≠ .block) : (e.executed i).h = e.h := by
  cases i with
  | init | feedfwd | compress | block => contradiction
  | _ => simp [Engine.executed]

theorem executed_work_rcnt_of_noWriter {i : Instr} (e : Engine) (notLoadwork : i ≠ .loadwork)
    (notRound : i ≠ .round) (notCompress : i ≠ .compress) (notBlock : i ≠ .block) :
    (e.executed i).work = e.work ∧ (e.executed i).rcnt = e.rcnt := by
  cases i with
  | loadwork | round | compress | block => contradiction
  | _ => simp [Engine.executed]

theorem executed_w_block (e : Engine) (i : Instr) (k : Nat) (lt : k < 16) : (e.executed i).w[k] = e.w[k] := by
  obtain eq | ⟨u, eq⟩ := executed_w e i
  · simp [eq]
  · simp [eq, expandedFile_block, lt]

theorem executed_res_of_hash (e : Engine) :
    ∀ i ∈ [Instr.nop, .init, .expand, .loadwork, .round, .feedfwd, .compress, .block],
      (e.executed i).res = e.res := by
  simp [Engine.executed]

/-- Settles O30: outside the engine by `exec_next_frame`, inside it register by register. -/
theorem hashCommandsFrame : Obligations.HashCommandsFrame := by
  intro i mem s t run
  obtain ⟨host, turns, held, draws, unit, strict, faults⟩ := exec_next_frame run
  obtain ⟨opx, opy, opz⟩ := executed_operands s.engine i
  rw [exec_next_engine run]
  exact ⟨host, turns, held, draws, unit, strict, faults, opx, opy, opz, executed_res_of_hash _ i mem,
    executed_w_block _ i, executed_w_of_noExpand _, executed_h_of_noWriter _, executed_work_rcnt_of_noWriter _⟩

/-! ### The bits a command runs on (R247) -/

/-- Two engines with the same bits in every register, whether they hold a value there or not. -/
structure Engine.SameBits (e e' : Engine) : Prop where
  w : valuesOf e'.w = valuesOf e.w
  h : valuesOf e'.h = valuesOf e.h
  work : valuesOf e'.work = valuesOf e.work
  opx : e'.opx.value = e.opx.value
  opy : e'.opy.value = e.opy.value
  opz : e'.opz.value = e.opz.value
  res : e'.res.value = e.res.value
  status : e'.status = e.status
  rcnt : e'.rcnt = e.rcnt
  pending : e'.pending = e.pending

theorem filled_sameBits (s : State) : s.engine.SameBits s.filled.engine where
  w := by simp [State.filled, valuesOf, Function.comp_def]
  h := by simp [State.filled, valuesOf, Function.comp_def]
  work := by simp [State.filled, valuesOf, Function.comp_def]
  opx := rfl
  opy := rfl
  opz := rfl
  res := rfl
  status := rfl
  rcnt := rfl
  pending := rfl

theorem value_eq_of_valuesOf_eq {n : Nat} {u v : Vector DataWord n} (same : valuesOf u = valuesOf v) (k : Nat)
    (lt : k < n) : u[k].value = v[k].value := by
  simpa using congrArg (fun x => x[k]) same

theorem blockPart_congr {u v : Vector DataWord 64} (same : valuesOf u = valuesOf v) : blockPart u = blockPart v := by
  ext1 t lt
  simpa using value_eq_of_valuesOf_eq same t (by omega)

theorem expandedFile_congr {u v : Vector DataWord 64} (same : valuesOf u = valuesOf v) (x : Vector Word 64) :
    valuesOf (expandedFile u x) = valuesOf (expandedFile v x) := by
  ext1 t lt
  by_cases block : t < 16
  · simpa [expandedFile_block, block] using value_eq_of_valuesOf_eq same t lt
  · simp [expandedFile_rest, Nat.not_lt.1 block]

theorem Engine.SameBits.get {e e' : Engine} (same : e.SameBits e') (r : DataReg) :
    (e'.get r).value = (e.get r).value := by
  cases r with
  | w t => exact value_eq_of_valuesOf_eq same.w t t.isLt
  | h k => exact value_eq_of_valuesOf_eq same.h k k.isLt
  | work k => exact value_eq_of_valuesOf_eq same.work k k.isLt
  | opx => exact same.opx
  | opy => exact same.opy
  | opz => exact same.opz
  | res => exact same.res

theorem Engine.SameBits.finish {e e' : Engine} (same : e.SameBits e') : e.finish.SameBits e'.finish :=
  { same with status := congrArg statusIdle same.status, pending := rfl }

/-- The expansion keeps to the bits. -/
theorem Engine.SameBits.expanded {e e' : Engine} (same : e.SameBits e') (u : Vector Word 64) :
    Engine.SameBits { e with w := expandedFile e.w u } { e' with w := expandedFile e'.w u } :=
  { same with w := expandedFile_congr same.w u }

/-- The rounds and the feed-forward write words. -/
theorem Engine.SameBits.compressed {e e' : Engine} (same : e.SameBits e') (u : Vector Word 64) (v : Vector Word 8) :
    (e.compressed u v).SameBits (e'.compressed u v) :=
  { same with work := rfl, h := rfl, rcnt := rfl }

/-- A command computes on the bits alone. -/
theorem Engine.SameBits.executed {e e' : Engine} (same : e.SameBits e') (i : Instr) :
    (e.executed i).SameBits (e'.executed i) := by
  have block := blockPart_congr same.w
  cases i <;> simp only [Engine.executed]
  case nop => exact same
  case init => exact { same with h := rfl }
  case expand =>
    rw [block]
    exact same.expanded _
  case loadwork => exact { same with work := by rw [same.h], rcnt := rfl }
  case round =>
    have word := value_eq_of_valuesOf_eq same.w
    exact { same with work := by simp [same.rcnt, same.work, word], rcnt := congrArg (· + 1) same.rcnt }
  case feedfwd => exact { same with h := by rw [same.h, same.work] }
  case compress =>
    rw [same.w, same.h]
    exact same.compressed _ _
  case block =>
    rw [block, same.h]
    exact (same.expanded _).compressed _ _
  all_goals exact { same with res := by simp only [same.opx, same.opy, same.opz] }

/-- Settles O58: the command and its run on the filled machine compute on the same bits, and the fault recorded is
that of the reads (`exec_next`). -/
theorem undefinedReadGoesOn : Obligations.UndefinedReadGoesOn := by
  intro i s lenient inRange
  obtain ⟨t, run⟩ := exec_completes_of_lenient lenient inRange
  have filled : exec i s.filled = .next (s.filled.completedWith (s.filled.engine.executed i)) := by
    rw [exec_eq_complete (s := s.filled) inRange, complete_eq_afterReads]
    exact afterReads_written _ _ _ (by simp)
  have same : (s.engine.executed i).finish.SameBits (s.filled.engine.executed i).finish :=
    ((filled_sameBits s).executed i).finish
  rw [← exec_next_engine run] at same
  refine ⟨t, _, run, filled, rfl, fun r => (same.get r).symm, same.rcnt.symm, same.status.symm,
    same.pending.symm, ?_⟩
  obtain ⟨-, ⟨all, rfl⟩ | ⟨r, mem, empty, -, rfl⟩⟩ := exec_next run
  · exact ⟨fun _ => rfl, fun ⟨q, mem, empty⟩ => absurd (all q mem) (by simp [empty])⟩
  · exact ⟨fun all => absurd (all r mem) (by simp [empty]), fun _ => ⟨r, mem, empty, rfl⟩⟩

end Sys2Proof.Machine
end

section
/-! PROOFS. What a step of the machine can lead to (R71), and what every step keeps: the invariant (R246), the values
of the registers (R21), the fault record (R44). -/

namespace Sys2Proof.Machine

/-! ### The steps of the agents (R60, R88) -/

/-- Every access reads a register, writes one, or is outside the port's form (R61, R67). -/
theorem freeAccess_cases (x : Access) :
    (∃ a, freeAccess x = hostRead a) ∨ (∃ a v, freeAccess x = hostWrite a v) ∨
    freeAccess x = fun _ => .fault .refusedAccess := by
  cases x with
  | read a => exact .inl ⟨a, rfl⟩
  | write a v => exact .inr (.inl ⟨a, v, rfl⟩)
  | busRead addr size =>
    cases index : busIndex addr size with
    | none => exact .inr (.inr (funext fun s => by simp [freeAccess, index]))
    | some a => exact .inl ⟨a, funext fun s => by simp [freeAccess, index]⟩
  | busWrite addr size v =>
    cases index : busIndex addr size with
    | none => exact .inr (.inr (funext fun s => by simp [freeAccess, index]))
    | some a => exact .inr (.inl ⟨a, v, funext fun s => by simp [freeAccess, index]⟩)

/-- A read that goes on gives the host a value; it can take a draw and record an undefined read. -/
theorem hostRead_next {a : BitVec 8} {s t : State} (run : hostRead a s = .next t) :
    ∃ host draws more, t = { s with host := host, draws := draws, faults := s.faults ++ more } := by
  unfold hostRead at run
  split at run
  · cases run
    exact ⟨_, _, [], by rw [List.append_nil]; rfl⟩
  · cases run
    exact ⟨_, _, [], by rw [List.append_nil]; rfl⟩
  · obtain ⟨-, rfl⟩ | ⟨r, -, -, -, rfl⟩ := afterReads_next run
    · exact ⟨_, _, [], by rw [List.append_nil]; rfl⟩
    · exact ⟨_, _, [.undefinedRead r], rfl⟩

/-- An access that goes on is made with reset not held (R273). -/
theorem hostAccess_next {x : Access} {s t : State} (run : hostAccess x s = .next t) :
    s.resetHeld = false ∧ freeAccess x s = .next t := by
  unfold hostAccess at run
  split at run
  · cases run
  · rename_i free
    exact ⟨by simpa using free, run⟩

theorem hostStep_next {s t : State} (run : hostStep s = .next t) :
    ∃ x pos, s.host.next = some (x, pos) ∧ hostAccess x (s.hostAt pos) = .next t := by
  cases next : s.host.next with
  | none => simp [hostStep, next] at run
  | some access => exact ⟨access.1, access.2, rfl, by simpa [hostStep, next] using run⟩

theorem engineStep_next {s t : State} (run : engineStep s = .next t) :
    ∃ v i, s.engine.pending = some v ∧ decode v = .ok i ∧ exec i s = .next t := by
  cases pending : s.engine.pending with
  | none => simp [engineStep, pending] at run
  | some v =>
    cases reads : decode v with
    | error _ => simp [engineStep, pending, reads] at run
    | ok i => exact ⟨v, i, rfl, reads, by simpa [engineStep, pending, reads] using run⟩

/-! ### The shapes of a step (R71) -/

/-- The next states of a step from `s`. -/
inductive StepShape (s : State) : State → Prop where
  /-- The turn passed, or a fault was recorded, or the host read: the engine is as it was. -/
  | engineKept (host : HostAgent) (draws : Nat) (more : List Fault) :
      StepShape s { s.afterTurn with host := host, draws := draws, faults := s.faults ++ more }
  /-- The host wrote the port. -/
  | portWritten (host : HostAgent) (a : BitVec 8) (v : Word) (free : s.resetHeld = false) :
      StepShape s { s.afterTurn with host := host, engine := s.engine.portWrite a v }
  /-- The pending command completed. -/
  | completed (i : Instr) (t : State) (run : exec i s.afterTurn = .next t) : StepShape s t
  /-- The platform reset the engine, holding reset or not. -/
  | reset (held : Bool) (turn : s.nextTurn = .reset ∨ s.nextTurn = .holdReset) :
      StepShape s { s.afterTurn with engine := Engine.reset, resetHeld := held }
  /-- The platform ended holding reset. -/
  | released : StepShape s { s.afterTurn with resetHeld := false }

theorem hostStep_shape {s t : State} (run : hostStep s.afterTurn = .next t) : StepShape s t := by
  obtain ⟨x, pos, -, access⟩ := hostStep_next run
  obtain ⟨free, made⟩ := hostAccess_next access
  obtain ⟨a, eq⟩ | ⟨a, v, eq⟩ | eq := freeAccess_cases x <;> rw [eq] at made
  · obtain ⟨host, draws, more, rfl⟩ := hostRead_next made
    exact .engineKept host draws more
  · cases made
    exact .portWritten _ a v free
  · cases made

theorem agentStep_shape {s t : State} (running : s.stopFault = none)
    (run : agentStep s.nextTurn s.afterTurn = .next t) : StepShape s t := by
  obtain ⟨reset, hold, release⟩ := agentStep_platform (s := s.afterTurn) running
  cases turn : s.nextTurn <;> rw [turn] at run
  case host =>
    rw [agentStep_host (s := s.afterTurn) running] at run
    exact hostStep_shape run
  case engine =>
    rw [agentStep_engine (s := s.afterTurn) running] at run
    obtain ⟨v, i, -, -, run⟩ := engineStep_next run
    exact .completed i t run
  case reset =>
    cases reset.symm.trans run
    exact .reset _ (.inl turn)
  case holdReset =>
    cases hold.symm.trans run
    exact .reset true (.inr turn)
  case releaseReset =>
    cases release.symm.trans run
    exact .released

/-- Everything a step can lead to. -/
theorem step_shape {s t : State} (run : step s = .next t) : StepShape s t := by
  obtain ⟨running, next | ⟨f, -, rfl⟩ | ⟨-, rfl⟩⟩ := step_cases run
  · exact agentStep_shape running next
  · exact .engineKept s.host s.draws [f]
  · simpa [State.afterTurn] using StepShape.engineKept (s := s) s.host s.draws []

/-! ### The invariant (R32, R38, R246) -/

/-- The invariant speaks of RCNT, BUSY and PENDING alone. -/
theorem Engine.Inv.congr {e e' : Engine} (inv : e.Inv) (rcnt : e'.rcnt = e.rcnt) (busy : e'.busy = e.busy)
    (pending : e'.pending = e.pending) : e'.Inv where
  rcntInRange := rcnt ▸ inv.rcntInRange
  busyIffPending := by rw [busy, pending, inv.busyIffPending]
  pendingAccepted v eq := by
    obtain ⟨isLegal, inRange⟩ := inv.pendingAccepted v (pending ▸ eq)
    exact ⟨isLegal, rcnt ▸ inRange⟩

theorem Engine.Inv.raise {e : Engine} (inv : e.Inv) (b : ErrorBit) : (e.raise b).Inv :=
  inv.congr rfl (e.raise_busy b) rfl

/-- An idle engine meets the invariant where RCNT is in range. -/
theorem Engine.Inv.of_idle {e : Engine} (rcnt : e.rcnt.toNat ≤ 64) (busy : e.busy = false)
    (pending : e.pending = none) : e.Inv where
  rcntInRange := rcnt
  busyIffPending := by simp [busy, pending]
  pendingAccepted v eq := by simp [pending] at eq

theorem reset_inv : Engine.reset.Inv := .of_idle (by decide) rfl rfl

/-- An accepted command is one that may be pending (R85 to R87). -/
theorem Engine.Inv.issue {e : Engine} (inv : e.Inv) (v : Word) : (e.issue v).Inv := by
  obtain ⟨-, eq⟩ | ⟨-, -, -, eq⟩ | ⟨isLegal, notSeq, eq⟩ := issue_cases e v <;> rw [eq]
  · exact inv.raise _
  · exact inv.raise _
  · refine ⟨inv.rcntInRange, by simp [Engine.busy, statusBusy], ?_⟩
    rintro _ ⟨⟩
    refine ⟨isLegal, fun round => ?_⟩
    have le := inv.rcntInRange
    have ne : e.rcnt.toNat ≠ 64 := fun eq => notSeq ⟨round, BitVec.eq_of_toNat_eq eq⟩
    exact Nat.lt_of_le_of_ne le ne

theorem Engine.Inv.portWrite {e : Engine} (inv : e.Inv) (a : BitVec 8) (v : Word) : (e.portWrite a v).Inv := by
  obtain ⟨-, eq⟩ | ⟨-, -, eq⟩ | ⟨-, eq⟩ | ⟨-, r, -, -, eq⟩ | ⟨-, -, eq⟩ := portWrite_cases e a v <;> rw [eq]
  · exact inv.congr rfl (e.writeStatus_busy v) rfl
  · exact inv.raise _
  · exact inv.raise _
  · exact inv.congr (by simp) (by simp [Engine.busy]) (by simp)
  · exact inv.issue v

theorem Engine.Inv.exec {s t : State} {i : Instr} (inv : s.engine.Inv) (run : exec i s = .next t) :
    t.engine.Inv := by
  rw [exec_next_engine run]
  exact .of_idle (executed_rcnt_le inv.rcntInRange (exec_next run).1) (Engine.finish_busy _) rfl

/-- Settles O43, by the shapes of a step: each leaves an engine that meets the invariant, and a command comes to be
pending only by a write, which the host makes with reset not held. -/
theorem everyStepKeepsInvariant : Obligations.EveryStepKeepsInvariant := by
  intro s t inv run
  cases step_shape run with
  | engineKept => exact ⟨inv.engine, inv.heldIsIdle⟩
  | portWritten _ a v free => exact ⟨inv.engine.portWrite a v, fun held => by simp [free] at held⟩
  | completed i _ run =>
    exact ⟨Engine.Inv.exec (s := s.afterTurn) inv.engine run, fun _ => by rw [exec_next_engine run]; rfl⟩
  | reset => exact ⟨reset_inv, fun _ => rfl⟩
  | released => exact ⟨inv.engine, nofun⟩

/-- Settles O44: the engine after reset is idle with RCNT = 64, and reset is not held. -/
theorem resetMeetsInvariant : Obligations.ResetMeetsInvariant := ⟨reset_inv, nofun⟩

/-! ### Registers that hold a value (R21, R63) -/

@[simp] theorem Engine.get_raise (e : Engine) (b : ErrorBit) (r : DataReg) : (e.raise b).get r = e.get r := by
  cases r <;> rfl

@[simp] theorem Engine.get_writeStatus (e : Engine) (v : Word) (r : DataReg) :
    (e.writeStatus v).get r = e.get r := by
  cases r <;> rfl

/-- Issue touches no data register (R85 to R87). -/
@[simp] theorem Engine.get_issue (e : Engine) (v : Word) (r : DataReg) : (e.issue v).get r = e.get r := by
  obtain ⟨-, eq⟩ | ⟨-, -, -, eq⟩ | ⟨-, -, eq⟩ := issue_cases e v <;> rw [eq]
  · exact e.get_raise _ r
  · exact e.get_raise _ r
  · cases r <;> rfl

theorem set_written {e : Engine} (q : DataReg) (v : Word) {r : DataReg} (written : (e.get r).written = true) :
    ((e.set q v).get r).written = true := by
  by_cases same : r = q
  · rw [same, Engine.get_set_same, of_written]
  · rwa [Engine.get_set_other e v same]

/-- No port write takes a register's value (R63). -/
theorem portWrite_written {e : Engine} (a : BitVec 8) (v : Word) {r : DataReg} (written : (e.get r).written = true) :
    ((e.portWrite a v).get r).written = true := by
  obtain ⟨-, eq⟩ | ⟨-, -, eq⟩ | ⟨-, eq⟩ | ⟨-, q, -, -, eq⟩ | ⟨-, -, eq⟩ := portWrite_cases e a v <;> rw [eq]
  case inr.inr.inr.inl => exact set_written q v written
  all_goals simpa using written

/-- Settles O59, by the shapes of a step: a write and a command only give values (`portWrite_written`,
`executed_written`). -/
theorem writtenRegistersStayWritten : Obligations.WrittenRegistersStayWritten := by
  intro s t r run noReset noHold written
  cases step_shape run with
  | engineKept => exact written
  | portWritten _ a v => exact portWrite_written a v written
  | completed i _ run =>
    rw [exec_next_engine run]
    exact executed_written i written
  | reset _ turn => exact absurd turn (by simp [noReset, noHold])
  | released => exact written

/-! ### The fault record (R13, R44) -/

/-- No step writes the flag `strict`, and none removes an entry of the fault record. -/
theorem StepShape.record {s t : State} (shape : StepShape s t) :
    t.strict = s.strict ∧ ∃ more, t.faults = s.faults ++ more := by
  cases shape with
  | engineKept _ _ more => exact ⟨rfl, more, rfl⟩
  | completed i _ run =>
    obtain ⟨-, -, -, -, -, strict, faults⟩ := exec_next_frame run
    obtain eq | ⟨r, -, eq⟩ := faults
    · exact ⟨strict, [], by simp [eq]⟩
    · exact ⟨strict, _, eq⟩
  | portWritten | reset | released => exact ⟨rfl, [], by simp⟩

theorem step_of_stopped {s : State} {f : Fault} (stopped : s.stopFault = some f) : step s = .fault f := by
  simp [step, machineStep, stopped]

/-- A state that a fault has stopped has no next state (R44). -/
theorem step_ne_next_of_stopped {s : State} (stopped : s.stopFault ≠ none) (t : State) : step s ≠ .next t := by
  obtain ⟨f, eq⟩ := Option.ne_none_iff_exists'.1 stopped
  simp [step_of_stopped eq]

/-- A recorded fault that stops the machine has stopped it, it or an earlier one. -/
theorem stopFault_some_of_mem {s : State} {f : Fault} (mem : f ∈ s.faults) (stops : f.stops s.strict = true) :
    ∃ g ∈ s.faults, s.stopFault = some g := by
  obtain ⟨g, eq⟩ := Option.isSome_iff_exists.1 (List.find?_isSome.2 ⟨f, mem, stops⟩)
  exact ⟨g, List.mem_of_find?_eq_some eq, eq⟩

theorem hostAccess_ne_refused (x : Access) (s : State) (q : Refusal) : hostAccess x s ≠ .refused q := by
  unfold hostAccess
  split
  · nofun
  obtain ⟨a, eq⟩ | ⟨a, v, eq⟩ | eq := freeAccess_cases x <;> rw [eq]
  · unfold hostRead
    split
    · nofun
    · nofun
    · exact afterReads_ne_refused _ _ _ _
  · nofun
  · nofun

theorem ofOutcome_ne_refused {o : Host.Outcome State Fault Refusal} (ne : ∀ q, o ≠ .refused q) (q : Refusal) :
    AgentOutcome.ofOutcome o ≠ .refused q := by
  cases o with
  | refused p => exact absurd rfl (ne p)
  | _ => nofun

/-- No agent's step is refused (R13). -/
theorem agentStep_ne_refused (turn : Turn) (s : State) (q : Refusal) : agentStep turn s ≠ .refused q := by
  cases stopped : s.stopFault with
  | some f => simp [agentStep, stopped]
  | none =>
    cases turn
    case host =>
      rw [agentStep_host stopped, hostStep]
      split
      · nofun
      · exact ofOutcome_ne_refused (hostAccess_ne_refused _ _) q
    case engine =>
      rw [agentStep_engine stopped, engineStep]
      split
      · nofun
      · split
        · exact ofOutcome_ne_refused (exec_ne_refused _ _) q
        · nofun
    all_goals simp [agentStep, stopped]

/-- A state that no fault has stopped has a next state (R13, R71). -/
theorem step_next_of_running {s : State} (running : s.stopFault = none) : ∃ t, step s = .next t := by
  rw [step_of_running running]
  cases o : agentStep s.nextTurn s.afterTurn with
  | refused q => exact absurd o (agentStep_ne_refused _ _ q)
  | next | fault | stuck => exact ⟨_, rfl⟩

/-- Settles O9: the record by the shapes of a step, the stopped states by the fault that stopped them, and a state
that none has stopped by `step_next_of_running`. -/
theorem faultRecordGrowsAndStops : Obligations.FaultRecordGrowsAndStops := by
  refine ⟨rfl, rfl, fun s t run => (step_shape run).record, ?strict, ?serious, ?lenient⟩
  case strict =>
    intro s f fs strict faults
    have stopped : s.stopFault = some f := by rw [stopFault_strict s strict, faults, List.head?_cons]
    exact ⟨step_of_stopped stopped, step_ne_next_of_stopped (by simp [stopped])⟩
  case serious =>
    intro s recorded
    obtain ⟨f, mem, stopped⟩ : ∃ f ∈ s.faults, s.stopFault = some f := by
      obtain mem | mem := recorded <;> exact stopFault_some_of_mem mem rfl
    exact ⟨⟨f, mem, step_of_stopped stopped⟩, step_ne_next_of_stopped (by simp [stopped])⟩
  case lenient =>
    intro s lenient onlyReads
    refine step_next_of_running (List.find?_eq_none.2 fun f mem => ?_)
    obtain ⟨r, rfl⟩ := onlyReads f mem
    simp [Fault.stops, lenient]

end Sys2Proof.Machine
end

section
/-! PROOFS. A clean step is the same on a machine that is strict and on one that is not (R44); the platform's reset
(R42, R270). -/

namespace Sys2Proof.Machine

/-! ### The flag `strict` in a clean step (R44) -/

/-- The machine with the flag `strict` set to `b`. -/
def State.withStrict (s : State) (b : Bool) : State := { s with strict := b }

/-- A read that goes on without a fault goes on whatever the flag. -/
theorem afterReads_withStrict {s t u : State} {reads : List DataReg} (b : Bool)
    (run : s.afterReads reads t = .next u) (clean : u.faults = []) :
    (s.withStrict b).afterReads reads (t.withStrict b) = .next (u.withStrict b) := by
  obtain ⟨all, rfl⟩ | ⟨r, -, -, -, rfl⟩ := afterReads_next run
  · exact afterReads_written _ _ _ all
  · simp at clean

theorem exec_withStrict {i : Instr} {s t : State} (b : Bool) (run : exec i s = .next t) (clean : t.faults = []) :
    exec i (s.withStrict b) = .next (t.withStrict b) := by
  have inRange := (exec_next run).1
  rw [exec_eq_complete inRange, complete_eq_afterReads] at run
  rw [exec_eq_complete (s := s.withStrict b) inRange, complete_eq_afterReads]
  exact afterReads_withStrict b run clean

theorem hostRead_withStrict {a : BitVec 8} {s t : State} (b : Bool) (run : hostRead a s = .next t)
    (clean : t.faults = []) : hostRead a (s.withStrict b) = .next (t.withStrict b) := by
  have result : (s.withStrict b).engine.portRead a = s.engine.portRead a := rfl
  unfold hostRead at run ⊢
  rw [result]
  cases read : s.engine.portRead a <;> rw [read] at run
  case data r v => exact afterReads_withStrict b run clean
  all_goals
    cases run
    rfl

theorem hostAccess_withStrict {x : Access} {s t : State} (b : Bool) (run : hostAccess x s = .next t)
    (clean : t.faults = []) : hostAccess x (s.withStrict b) = .next (t.withStrict b) := by
  obtain ⟨free, made⟩ := hostAccess_next run
  have asFree : hostAccess x (s.withStrict b) = freeAccess x (s.withStrict b) := by
    simp [hostAccess, State.withStrict, free]
  rw [asFree]
  obtain ⟨a, eq⟩ | ⟨a, v, eq⟩ | eq := freeAccess_cases x <;> rw [eq] at made ⊢
  · exact hostRead_withStrict b made clean
  · cases made
    rfl
  · cases made

theorem agentStep_withStrict {turn : Turn} {s t : State} (b : Bool) (noFault : s.faults = [])
    (run : agentStep turn s = .next t) (clean : t.faults = []) :
    agentStep turn (s.withStrict b) = .next (t.withStrict b) := by
  have running := stopFault_of_no_fault noFault
  have running' : (s.withStrict b).stopFault = none := stopFault_of_no_fault noFault
  cases turn
  case host =>
    rw [agentStep_host running] at run
    obtain ⟨x, pos, next, access⟩ := hostStep_next run
    rw [agentStep_host running', hostStep_of_access (s := s.withStrict b) next, ofOutcome_eq_next_iff]
    exact hostAccess_withStrict (s := s.hostAt pos) b access clean
  case engine =>
    rw [agentStep_engine running] at run
    obtain ⟨v, i, pending, reads, run⟩ := engineStep_next run
    rw [agentStep_engine running', engineStep_of_command (s := s.withStrict b) pending reads,
      ofOutcome_eq_next_iff]
    exact exec_withStrict b run clean
  all_goals
    simp only [agentStep, running, running'] at run ⊢
    cases run
    rfl

/-- Which agents are stuck does not depend on the flag. -/
theorem agentStep_stuck_withStrict {turn : Turn} {s : State} (b : Bool) (noFault : s.faults = [])
    (stuck : agentStep turn s = .stuck) : agentStep turn (s.withStrict b) = .stuck := by
  have running := stopFault_of_no_fault noFault
  have running' : (s.withStrict b).stopFault = none := stopFault_of_no_fault noFault
  cases turn
  case host =>
    rw [agentStep_host running, hostStep_eq_stuck_iff] at stuck
    rwa [agentStep_host running', hostStep_eq_stuck_iff]
  case engine =>
    rw [agentStep_engine running, engineStep_eq_stuck_iff] at stuck
    rwa [agentStep_engine running', engineStep_eq_stuck_iff]
  all_goals simp [agentStep, running] at stuck

/-- A step without a fault is made whatever the flag. -/
theorem step_withStrict {s t : State} (b : Bool) (noFault : s.faults = []) (clean : t.faults = [])
    (run : step s = .next t) : step (s.withStrict b) = .next (t.withStrict b) := by
  have running : (s.withStrict b).stopFault = none := stopFault_of_no_fault noFault
  rw [step_of_running running, settle_eq_next_iff]
  obtain ⟨-, next | ⟨f, -, rfl⟩ | ⟨stuck, rfl⟩⟩ := step_cases run
  · exact .inl (agentStep_withStrict (s := s.afterTurn) b noFault next clean)
  · simp at clean
  · exact .inr (.inr ⟨agentStep_stuck_withStrict (s := s.afterTurn) b noFault stuck, rfl⟩)

/-- Settles O60, each direction by `step_withStrict`. -/
theorem strictnessChangesNoCleanRun : Obligations.StrictnessChangesNoCleanRun := fun s t noFault clean =>
  ⟨step_withStrict (s := s.withStrict false) (t := t.withStrict false) true noFault clean,
    step_withStrict (s := s.withStrict true) (t := t.withStrict true) false noFault clean⟩

/-! ### The platform's reset (R42, R270) -/

/-- After reset no data register holds a value (R42). -/
theorem reset_unwritten (r : DataReg) : (Engine.reset.get r).written = false := by
  cases r <;> simp [Engine.get, Engine.reset, DataWord.atReset]

/-- Settles O40: the step is the platform's reset, and a stopped state answers its fault. -/
theorem resetStep : Obligations.ResetStep := by
  refine ⟨fun s running turn => ?_, fun s t stopped _ => step_ne_next_of_stopped stopped t,
    fun s t strict faulted _ => step_ne_next_of_stopped (stopFault_ne_none_of_strict strict faulted) t⟩
  refine ⟨s.afterTurn.platformReset, ?_, rfl, rfl, rfl, rfl, reset_unwritten⟩
  rw [step_of_running running, turn, (agentStep_platform (s := s.afterTurn) running).1, State.settle]

end Sys2Proof.Machine
end

section
/-! PROOFS. The register port (R41, R62, R63): what a read of each index gives, the ROMs, the write to STATUS. -/

namespace Sys2Proof.Machine

/-! ### Port reads (R41, R62) -/

/-- While idle a read gives what the index names. -/
theorem portRead_of_idle {e : Engine} (idle : e.busy = false) (a : BitVec 8) :
    e.portRead a = e.idleRead (portMap a) := by
  simp [Engine.portRead, idle]

/-- While busy a read of any index but STATUS and ID is a draw. -/
theorem portRead_of_busy {e : Engine} {a : BitVec 8} (busy : e.busy = true) (notStatus : a ≠ 0x51)
    (notId : a ≠ 0x57) : e.portRead a = .draw := by
  have named : ¬(portMap a = .status ∨ portMap a = .id) := by
    rw [portMap_eq_status_iff, portMap_eq_id_iff]
    exact not_or.2 ⟨notStatus, notId⟩
  rw [Engine.portRead, if_neg named, if_pos busy]

theorem portRead_k {e : Engine} {a : BitVec 8} (idle : e.busy = false) (t : Nat) (lt : t < 64)
    (index : a.toNat = 0x80 + t) : e.portRead a = .value Config.roundConstants[t] := by
  rw [portRead_of_idle idle, portMap_k lt index]
  rfl

theorem portRead_iv {e : Engine} {a : BitVec 8} (idle : e.busy = false) (i : Nat) (lt : i < 8)
    (index : a.toNat = 0xC0 + i) : e.portRead a = .value Config.initialHash[i] := by
  rw [portRead_of_idle idle, portMap_iv lt index]
  rfl

theorem portRead_w {e : Engine} {a : BitVec 8} (idle : e.busy = false) (t : Nat) (lt : t < 64)
    (index : a.toNat = t) : e.portRead a = .data (.w (Fin.ofNat 64 t)) e.w[t].value := by
  rw [portRead_of_idle idle, portMap_w lt index, fin64_ofNat lt]
  rfl

theorem portRead_h {e : Engine} {a : BitVec 8} (idle : e.busy = false) (i : Nat) (lt : i < 8)
    (index : a.toNat = 0x40 + i) : e.portRead a = .data (.h (Fin.ofNat 8 i)) e.h[i].value := by
  rw [portRead_of_idle idle, portMap_h lt index, fin8_ofNat lt]
  rfl

theorem portRead_work {e : Engine} {a : BitVec 8} (idle : e.busy = false) (i : Nat) (lt : i < 8)
    (index : a.toNat = 0x48 + i) : e.portRead a = .data (.work (Fin.ofNat 8 i)) e.work[i].value := by
  rw [portRead_of_idle idle, portMap_work lt index, fin8_ofNat lt]
  rfl

/-- The read of a data register goes through its value, or raises the fault of one that holds none. -/
theorem hostRead_data {s : State} {a : BitVec 8} {r : DataReg} {v : Word} (read : s.engine.portRead a = .data r v) :
    hostRead a s = s.afterReads [r] (s.hostReceives v) := by
  simp [hostRead, read]

/-- The fault of a read of one register names it (R21). -/
theorem afterReads_one_unwritten {s t : State} {r : DataReg} (empty : (s.engine.get r).written = false) :
    s.afterReads [r] t
      = if s.strict then .fault (.undefinedRead r) else .next (t.recordFault (.undefinedRead r)) := by
  obtain ⟨q, mem, -, out⟩ := afterReads_unwritten s t [r] ⟨r, by simp, empty⟩
  obtain rfl := List.mem_singleton.1 mem
  exact out

/-- Settles O32: the indices by the register map, and `get` by `afterReads` of the one register. -/
theorem portReadOfEveryIndex : Obligations.PortReadOfEveryIndex := by
  refine ⟨fun e a => ⟨?_, ?_, portRead_of_busy, fun idle => ?_⟩, fun s a r v read => ?_⟩
  · rintro rfl
    rfl
  · rintro rfl
    rfl
  · have atIndex := portRead_of_idle (e := e) idle
    refine ⟨portRead_w idle, portRead_h idle, portRead_work idle, ?_, ?_, ?_, ?_, ?_, ?_, portRead_k idle,
      portRead_iv idle, fun range => by rw [atIndex, portMap_reserved range]; rfl⟩
    all_goals
      rintro rfl
      exact atIndex _
  · rw [hostRead_data read]
    refine ⟨fun written => afterReads_written _ _ _ (by simpa using written), fun empty => ?_,
      fun empty strict => by rw [afterReads_one_unwritten empty, if_pos strict]⟩
    rw [afterReads_one_unwritten empty]
    cases s.strict
    · exact .inr ⟨_, rfl, rfl⟩
    · exact .inl rfl

/-! ### The ROMs and the reset values (R36, R37, R42) -/

theorem romIndex_toNat {base t n : Nat} (lt : t < n) (fits : base + n ≤ 256) :
    (BitVec.ofNat 8 (base + t)).toNat = base + t :=
  Nat.mod_eq_of_lt (by omega)

/-- A read of the ROMs while idle, whatever the engine. -/
theorem portRead_roms {e : Engine} (idle : e.busy = false) :
    (∀ t (_ : t < 64), e.portRead (BitVec.ofNat 8 (0x80 + t)) = .value Config.roundConstants[t]) ∧
    (∀ i (_ : i < 8), e.portRead (BitVec.ofNat 8 (0xC0 + i)) = .value Config.initialHash[i]) :=
  ⟨fun t lt => portRead_k idle t lt (romIndex_toNat lt (by decide)),
    fun i lt => portRead_iv idle i lt (romIndex_toNat lt (by decide))⟩

/-- Settles O55: the two lists are the model's, and they are read whatever the engine holds. -/
theorem romContents : Obligations.RomContents := ⟨rfl, rfl, fun _ _ _ => portRead_roms⟩

/-- Settles O39: no register is written, and an idle engine's reads are what the indices name. -/
theorem resetValues : Obligations.ResetValues := by
  have idle : State.reset.engine.busy = false := rfl
  have atIndex := portRead_of_idle idle
  exact ⟨reset_unwritten, rfl, rfl, rfl, atIndex 0x50, atIndex 0x51, atIndex 0x52, atIndex 0x57,
    portRead_roms idle⟩

/-! ### The write to STATUS (R30) -/

/-- The error bits written with 1 are cleared. -/
theorem statusClear_getLsbD (s : BitVec 5) (v : Word) {i : Nat} (lt : i < 5) :
    (statusClear s v).getLsbD i = if 1 ≤ i ∧ v.getLsbD i = true then false else s.getLsbD i := by
  have mask : (0x1E#5).getLsbD i = decide (1 ≤ i) := by
    interval_cases i <;> rfl
  have cleared : (statusClear s v).getLsbD i = (s.getLsbD i && !(v.getLsbD i && decide (1 ≤ i))) := by
    simp only [statusClear, BitVec.getLsbD_and, BitVec.getLsbD_not, BitVec.getLsbD_extractLsb', Nat.zero_add, mask,
      lt, decide_true, Bool.true_and]
  rw [cleared]
  by_cases error : 1 ≤ i <;> cases bit : v.getLsbD i <;> simp [error]

/-- Settles O34: a write to index 0x51 is `writeStatus`, which writes STATUS alone, with the bits of `statusClear`. -/
theorem statusWriteOneToClear : Obligations.StatusWriteOneToClear := by
  intro e v
  have write : e.portWrite 0x51 v = e.writeStatus v := rfl
  rw [write]
  exact ⟨fun i lt => statusClear_getLsbD e.status v lt, rfl⟩

end Sys2Proof.Machine
end

section
/-! PROOFS. Port writes (R30, R63): what a write to each index does, which writes are idempotent (R65), and what a
write leaves while a command is pending (R72). -/

namespace Sys2Proof.Machine

/-! ### Port writes (R41, R63) -/

/-- A write to STATUS clears error bits at any time (R30). -/
theorem portWrite_status (e : Engine) (v : Word) : e.portWrite 0x51 v = e.writeStatus v := rfl

/-- While busy a write to any index but STATUS is dropped with ERR_BUSY. -/
theorem portWrite_of_busy {e : Engine} {a : BitVec 8} (busy : e.busy = true) (notStatus : a ≠ 0x51) (v : Word) :
    e.portWrite a v = e.raise .errBusy := by
  have named : portMap a ≠ .status := mt (portMap_eq_status_iff a).1 notStatus
  rw [Engine.portWrite, if_neg named, if_pos busy]

/-- While idle a write goes to what the index names. -/
theorem portWrite_of_idle {e : Engine} (idle : e.busy = false) (a : BitVec 8) (v : Word) :
    e.portWrite a v = e.idleWrite (portMap a) v := by
  by_cases named : portMap a = .status
  · rw [Engine.portWrite, if_pos named, named]
    rfl
  · simp [Engine.portWrite, named, idle]

/-- While idle a write to a data register open to the host gives it the value. -/
theorem portWrite_data {e : Engine} {a : BitVec 8} {r : DataReg} (idle : e.busy = false)
    (index : portMap a = .data r) (writable : r.hostWritable = true) (v : Word) : e.portWrite a v = e.set r v := by
  rw [portWrite_of_idle idle, index]
  exact if_pos writable

/-- While idle a write to a read-only or reserved index is dropped with ERR_ADDR: WA..WH, RCNT, RES, ID, K, IV and
the rest. -/
theorem portWrite_readOnly {e : Engine} {a : BitVec 8} (idle : e.busy = false)
    (range : (0x48 ≤ a.toNat ∧ a.toNat ≤ 0x4F) ∨ a = 0x52 ∨ 0x56 ≤ a.toNat) (v : Word) :
    e.portWrite a v = e.raise .errAddr := by
  rw [portWrite_of_idle idle]
  obtain ⟨ge, le⟩ | rfl | ge := range
  · rw [portMap_work (i := a.toNat - 0x48) (by omega) (by omega)]
    rfl
  · rfl
  by_cases res : a.toNat = 0x56
  · rw [index_eq_ofNat res]
    rfl
  by_cases id : a.toNat = 0x57
  · rw [index_eq_ofNat id]
    rfl
  by_cases reserved : a.toNat ≤ 0x7F ∨ 0xC8 ≤ a.toNat
  · rw [portMap_reserved (by omega)]
    rfl
  by_cases k : a.toNat < 0xC0
  · rw [portMap_k (t := a.toNat - 0x80) (by omega) (by omega)]
    rfl
  · rw [portMap_iv (i := a.toNat - 0xC0) (by omega) (by omega)]
    rfl

/-- Settles O33: STATUS and a busy engine first, then while idle the indices by the register map. -/
theorem portWriteToEveryIndex : Obligations.PortWriteToEveryIndex := by
  refine fun e a v => ⟨?status, fun busy notStatus => portWrite_of_busy busy notStatus v, fun idle => ?idle⟩
  case status =>
    rintro rfl
    rw [portWrite_status, Engine.writeStatus, statusClear, BitVec.setWidth_eq_extractLsb' (by decide)]
  case idle =>
    refine ⟨fun t lt index => portWrite_data idle (portMap_w lt index) rfl v,
      fun i lt index => portWrite_data idle (portMap_h lt index) rfl v, ?_, ?_, ?_, ?_,
      fun range => portWrite_readOnly idle range v⟩
    all_goals
      rintro rfl
      exact portWrite_of_idle idle _ v

/-! ### Writes made twice (R65) -/

/-- The indices of W, H, OPX, OPY and OPZ name data registers open to the host. -/
theorem portMap_hostWritable {a : BitVec 8} (range : a.toNat < 0x48 ∨ a = 0x53 ∨ a = 0x54 ∨ a = 0x55) :
    ∃ r, portMap a = .data r ∧ r.hostWritable = true := by
  obtain lt | rfl | rfl | rfl := range
  · by_cases block : a.toNat < 0x40
    · exact ⟨_, portMap_w block rfl, rfl⟩
    · exact ⟨_, portMap_h (i := a.toNat - 0x40) (by omega) (by omega), rfl⟩
  · exact ⟨.opx, rfl, rfl⟩
  · exact ⟨.opy, rfl, rfl⟩
  · exact ⟨.opz, rfl, rfl⟩

theorem Engine.set_set_same (e : Engine) (r : DataReg) (v : Word) : (e.set r v).set r v = e.set r v := by
  cases r <;> simp [Engine.set]

@[simp] theorem Engine.set_busy (e : Engine) (r : DataReg) (v : Word) : (e.set r v).busy = e.busy := by
  simp [Engine.busy]

/-- An idle engine that issue leaves busy has accepted the command (R85). -/
theorem issue_accepted {e : Engine} {v : Word} (idle : e.busy = false) (busy : (e.issue v).busy = true) :
    e.issue v = { e with pending := some v, status := statusBusy e.status } := by
  obtain ⟨-, eq⟩ | ⟨-, -, -, eq⟩ | ⟨-, -, eq⟩ := issue_cases e v
  · simp [eq, idle] at busy
  · simp [eq, idle] at busy
  · exact eq

/-- Settles O36: a data register is set twice to one value, and an accepted command makes the engine busy. -/
theorem repeatedWrites : Obligations.RepeatedWrites := by
  refine fun e a v idle => ⟨fun range => ?data, fun busy => ?command⟩
  case data =>
    obtain ⟨r, index, writable⟩ := portMap_hostWritable range
    have idle' : (e.set r v).busy = false := by rw [Engine.set_busy, idle]
    rw [portWrite_data idle index writable, portWrite_data idle' index writable, portRead_of_idle idle', index]
    exact ⟨e.set_set_same r v, r, by simp [Engine.idleRead, Engine.get_set_same]⟩
  case command =>
    have first : e.portWrite 0x50 v = e.issue v := portWrite_of_idle idle _ v
    rw [portWrite_of_busy busy (by decide)]
    rw [first] at busy ⊢
    rw [issue_accepted idle busy, Engine.raise, statusBusy, BitVec.or_assoc]
    rfl

/-! ### Writes while a command is pending (R72, R280) -/

/-- While busy a port write changes no data register, not RCNT, PENDING or BUSY. -/
theorem portWrite_busy_frame {e : Engine} (busy : e.busy = true) (a : BitVec 8) (v : Word) :
    (∀ r, (e.portWrite a v).get r = e.get r) ∧ (e.portWrite a v).rcnt = e.rcnt ∧
    (e.portWrite a v).pending = e.pending ∧ (e.portWrite a v).busy = true := by
  by_cases status : a = 0x51
  · rw [status, portWrite_status]
    simp [busy]
  · rw [portWrite_of_busy busy status]
    simp [busy]

/-- The host's turn leaves the engine, or is a port write of it (R60, R62, R63). -/
theorem hostTurn_engine {s t : State} (turn : s.nextTurn = .host) (run : step s = .next t) :
    t.engine = s.engine ∨ ∃ a v, t.engine = s.engine.portWrite a v := by
  obtain ⟨running, next | ⟨f, -, rfl⟩ | ⟨-, rfl⟩⟩ := step_cases run
  · rw [turn, agentStep_host (s := s.afterTurn) running] at next
    obtain ⟨x, pos, -, access⟩ := hostStep_next next
    obtain ⟨-, made⟩ := hostAccess_next access
    obtain ⟨a, eq⟩ | ⟨a, v, eq⟩ | eq := freeAccess_cases x <;> rw [eq] at made
    · obtain ⟨host, draws, more, rfl⟩ := hostRead_next made
      exact .inl rfl
    · cases made
      exact .inr ⟨a, v, rfl⟩
    · cases made
  · exact .inl rfl
  · exact .inl rfl

/-- Settles O37: the host's turn is at most a port write, and one while busy leaves what the command reads. -/
theorem busyProtectsCommand : Obligations.BusyProtectsCommand := by
  intro s t busy turn run
  obtain eq | ⟨a, v, eq⟩ := hostTurn_engine turn run <;> rw [eq]
  · exact ⟨fun _ => rfl, rfl, rfl, busy⟩
  · exact portWrite_busy_frame busy a v

end Sys2Proof.Machine
end

section
/-! PROOFS. The accesses of the host in the port's form and in the bus form (R61, R67), the host's step (R60, R91), and
the engine's turn without a pending command (R71, R88). -/

namespace Sys2Proof.Machine

/-! ### The bus form (R67) -/

/-- The bus access of index `a` names that index. -/
theorem busIndex_port (a : BitVec 8) : busIndex (Config.busBase + 4 * a.toNat) 4 = some a := by
  have lt := a.isLt
  have inPort : (4 : Nat) = 4 ∧ Config.busBase ≤ Config.busBase + 4 * a.toNat ∧
      Config.busBase + 4 * a.toNat ≤ Config.busBase + 1023 ∧
      (Config.busBase + 4 * a.toNat - Config.busBase) % 4 = 0 := by omega
  rw [busIndex, if_pos inPort, Nat.add_sub_cancel_left, Nat.mul_div_cancel_left _ (by decide),
    BitVec.ofNat_toNat, BitVec.setWidth_eq]

/-- A bus access outside the port's form names no index. -/
theorem busIndex_outside {addr size : Nat}
    (outside : ¬(size = 4 ∧ ∃ i : BitVec 8, addr = Config.busBase + 4 * i.toNat)) : busIndex addr size = none := by
  refine if_neg fun ⟨four, ge, le, aligned⟩ => outside ⟨four, BitVec.ofNat 8 ((addr - Config.busBase) / 4), ?_⟩
  rw [BitVec.toNat_ofNat, Nat.mod_eq_of_lt (by omega)]
  omega

/-- Both forms of a read of index `a` make the port read. -/
theorem hostAccess_read {x : Access} {a : BitVec 8} {s : State}
    (form : x = .read a ∨ x = .busRead (Config.busBase + 4 * a.toNat) 4) (free : s.resetHeld = false) :
    hostAccess x s = hostRead a s := by
  obtain rfl | rfl := form <;> simp [hostAccess, freeAccess, free, busIndex_port]

/-- Both forms of a write to index `a` make the port write. -/
theorem hostAccess_write {x : Access} {a : BitVec 8} {v : Word} {s : State}
    (form : x = .write a v ∨ x = .busWrite (Config.busBase + 4 * a.toNat) 4 v) (free : s.resetHeld = false) :
    hostAccess x s = hostWrite a v s := by
  obtain rfl | rfl := form <;> simp [hostAccess, freeAccess, free, busIndex_port]

/-- A bus access outside the port's form is refused, reset held or not (R67, R273). -/
theorem hostAccess_outside {x : Access} {addr size : Nat} {v : Word}
    (form : x = .busRead addr size ∨ x = .busWrite addr size v)
    (outside : ¬(size = 4 ∧ ∃ i : BitVec 8, addr = Config.busBase + 4 * i.toNat)) (s : State) :
    hostAccess x s = .fault .refusedAccess := by
  obtain rfl | rfl := form <;> simp [hostAccess, freeAccess, busIndex_outside outside]

/-- Settles O38: both forms of an index make one port access, and every other bus access is refused. -/
theorem busAccessForm : Obligations.BusAccessForm := by
  refine ⟨Nat.mul_mod_right _ _, fun i v s free => ⟨?_, ?_⟩, fun addr size v s outside =>
    ⟨hostAccess_outside (v := v) (.inl rfl) outside s, hostAccess_outside (.inr rfl) outside s⟩⟩
  · rw [hostAccess_read (.inr rfl) free, hostAccess_read (.inl rfl) free]
  · rw [hostAccess_write (.inr rfl) free, hostAccess_write (.inl rfl) free]

/-! ### The host's step (R60, R62, R91) -/

/-- The host's turn is its next access, from the position after it. -/
theorem step_of_hostAccess {s : State} {x : Access} {pos : Nat} (running : s.stopFault = none)
    (turn : s.nextTurn = .host) (next : s.host.next = some (x, pos)) :
    step s = s.afterTurn.settle (.ofOutcome (hostAccess x (s.afterTurn.hostAt pos))) := by
  rw [step_of_running running, turn, agentStep_host (s := s.afterTurn) running,
    hostStep_of_access (s := s.afterTurn) next]

/-- A read that finds a value gives it to the host. -/
theorem hostRead_value {s : State} {a : BitVec 8} {v : Word}
    (found : s.engine.portRead a = .value v ∨
      ∃ r, s.engine.portRead a = .data r v ∧ (s.engine.get r).written = true) :
    hostRead a s = .next (s.hostReceives v) := by
  obtain read | ⟨r, read, written⟩ := found
  · simp [hostRead, read]
  · rw [hostRead_data read]
    exact afterReads_written _ _ _ (by simpa using written)

/-- A read that is a draw gives the host the next one (R12, log 5). -/
theorem hostRead_draw {s : State} {a : BitVec 8} (read : s.engine.portRead a = .draw) :
    hostRead a s = .next ({ s with draws := s.draws + 1 }.hostReceives (Config.draw s.unit s.draws)) := by
  simp [hostRead, read]

/-- The last value read is the newest of those the host's reads returned (R91). -/
theorem HostAgent.lastRead_of_reads {h : HostAgent} {v : Word} {before : List Word} (reads : h.reads = v :: before) :
    h.lastRead = v := by
  rw [HostAgent.lastRead, reads, List.headD_cons]

/-- Settles O7: the host's next access by the kind of its line, and the step by its access (`step_of_hostAccess`),
whose two forms make one port access. -/
theorem stepMakesHostAccess : Obligations.StepMakesHostAccess := by
  refine ⟨fun h => ⟨fun _ => HostAgent.next_access, fun _ _ => HostAgent.next_branch,
    fun past => HostAgent.next_end (List.getElem?_eq_none past), fun _ _ => HostAgent.lastRead_of_reads⟩,
    fun s pos running turn free => ⟨fun a x form next => ?read, fun a v x form next => ?write,
    fun addr size v x form outside next => ?outside⟩⟩
  all_goals
    have free' : (s.afterTurn.hostAt pos).resetHeld = false := free
    rw [step_of_hostAccess running turn next]
  case read =>
    rw [hostAccess_read form free']
    refine ⟨fun v found => ?value, fun read => ?draw, fun r v read empty => ?unwritten⟩
    case value =>
      rw [hostRead_value (s := s.afterTurn.hostAt pos) found]
      rfl
    case draw =>
      rw [hostRead_draw (s := s.afterTurn.hostAt pos) read]
      rfl
    case unwritten =>
      rw [hostRead_data (s := s.afterTurn.hostAt pos) read,
        afterReads_one_unwritten (s := s.afterTurn.hostAt pos) empty, State.hostAt_strict, State.afterTurn_strict]
      by_cases strict : s.strict = true
      · rw [if_pos strict, if_pos strict]
        rfl
      · rw [if_neg strict, if_neg strict]
        rfl
  case write =>
    rw [hostAccess_write form free']
    rfl
  case outside =>
    rw [hostAccess_outside form outside]
    rfl

/-! ### The engine's turn without a pending command (R71, R88) -/

/-- Settles O8: the engine is stuck exactly without a pending command, and the turn of a stuck agent passes. -/
theorem noEngineStepWithoutPending : Obligations.NoEngineStepWithoutPending := by
  intro s running
  refine ⟨by rw [agentStep_engine running, engineStep_eq_stuck_iff], fun first idle => step_of_stuck running ?_⟩
  have turn : s.nextTurn = .engine := by
    obtain ⟨rest, order⟩ := List.head?_eq_some_iff.1 first
    rw [State.nextTurn, order]
  rw [turn, agentStep_engine (s := s.afterTurn) running, engineStep_eq_stuck_iff]
  exact idle

end Sys2Proof.Machine
end

section
/-! PROOFS. Command words (R80 to R86): the decoder and the encoder are inverse to each other, the rows of the opcode
map, and the legal words. -/

namespace Sys2Proof

/-! ### The decoder and the encoder (R80 to R84) -/

/-- The decoder reads the command whose fields a word has. -/
theorem decode_of_fields {v : Word} {i : Instr} (wf : i.wellFormed = true) (rsv : rsvField v = 0#19)
    (amount : amountField v = i.amount) (op : opField v = i.opcode) : decode v = .ok i := by
  unfold decode
  rw [if_neg (not_not_intro rsv), amount, op]
  cases i with
  | rotr n => exact if_neg (by simpa [Instr.wellFormed, Instr.amount] using wf)
  | _ => rfl

/-- The fields of the word of a command are the command's. -/
theorem encode_fields (i : Instr) :
    rsvField (encode i) = 0#19 ∧ amountField (encode i) = i.amount ∧ opField (encode i) = i.opcode := by
  have amount := i.amount.isLt
  have op := i.opcode.isLt
  refine ⟨BitVec.eq_of_toNat_eq ?_, BitVec.eq_of_toNat_eq ?_, BitVec.eq_of_toNat_eq ?_⟩
  · rw [rsvField_toNat, encode_toNat, BitVec.toNat_ofNat]
    omega
  · rw [amountField_toNat, encode_toNat]
    omega
  · rw [opField_toNat, encode_toNat]
    omega

/-- The decoder reads well-formed commands alone. -/
theorem wellFormed_of_decode {v : Word} {i : Instr} (accepted : decode v = .ok i) : i.wellFormed = true := by
  obtain ⟨-, -, -, wf⟩ := decode_fields accepted
  exact wf

theorem decode_encode {i : Instr} (wf : i.wellFormed = true) : decode (encode i) = .ok i := by
  obtain ⟨rsv, amount, op⟩ := encode_fields i
  exact decode_of_fields wf rsv amount op

theorem encode_of_decode {v : Word} {i : Instr} (accepted : decode v = .ok i) : encode i = v := by
  obtain ⟨rsv, amount, op, -⟩ := decode_fields accepted
  apply BitVec.eq_of_toNat_eq
  rw [encode_toNat, word_toNat v, rsv, amount, op]
  simp

/-- Settles O2: a word is the number its fields make, so the word of a command and the fields the decoder reads
(`decode_fields`) determine each other. -/
theorem decodeEncodeAgree : Obligations.DecodeEncodeAgree :=
  ⟨fun _ => decode_encode, fun _ _ accepted => ⟨wellFormed_of_decode accepted, encode_of_decode accepted⟩⟩

/-- The word of a command as the number its op code and amount make (R80, R84). -/
theorem ofNat_eq_encode (i : Instr) :
    BitVec.ofNat 32 (i.opcode.toNat + i.amount.toNat * 0x100) = encode i := by
  rw [Nat.add_comm, ← encode_toNat, BitVec.ofNat_toNat, BitVec.setWidth_eq]

/-- Settles O1: the fixed words by evaluation, ROTR and SHR at every amount by `decode_encode`. -/
theorem specWordsDecode : Obligations.SpecWordsDecode := by
  refine ⟨rfl, rfl, rfl, rfl, rfl, rfl, rfl, rfl, rfl, rfl, rfl, rfl, fun n nonzero => ?rotr, rfl, fun n => ?shr,
    rfl, rfl, rfl, rfl, rfl, rfl⟩
  case rotr =>
    exact (congrArg decode (ofNat_eq_encode (.rotr n))).trans (decode_encode (by simpa [Instr.wellFormed]))
  case shr => exact (congrArg decode (ofNat_eq_encode (.shr n))).trans (decode_encode rfl)

/-! ### The rows of the opcode map (R84) -/

/-- The row of the opcode map that a command's word falls under. -/
def Instr.row (i : Instr) : OpcodeRow :=
  match i with
  | .rotr _ => ⟨"ROTR", 0x14#32, 0xFFFFE0FF#32, true⟩
  | .shr _ => ⟨"SHR", 0x15#32, 0xFFFFE0FF#32, false⟩
  | i => fixedRow i.mnemonic (encode i)

theorem mem_opcodeTable_iff (r : OpcodeRow) : r ∈ opcodeTable ↔ ∃ i : Instr, i.row = r := by
  constructor
  · have rows : opcodeTable =
        [Instr.nop, .init, .expand, .loadwork, .round, .feedfwd, .compress, .block, .add, .and, .xor, .not,
          .rotr 1, .shr 0, .ch, .maj, .bsig0, .bsig1, .ssig0, .ssig1].map Instr.row := by decide
    rw [rows, List.mem_map]
    exact fun ⟨i, _, eq⟩ => ⟨i, eq⟩
  · rintro ⟨i, rfl⟩
    cases i with
    | rotr n => exact (by decide : (Instr.rotr 1).row ∈ opcodeTable)
    | shr n => exact (by decide : (Instr.shr 0).row ∈ opcodeTable)
    | _ => decide

theorem fixedRow_selects_iff (mnemonic : String) (word v : Word) :
    (fixedRow mnemonic word).selects v = true ↔ v = word := by
  have whole : v &&& 0xFFFFFFFF#32 = v := BitVec.and_allOnes
  simp [OpcodeRow.selects, fixedRow, whole]

/-- A word that agrees with `word` outside the amount field has the op field and the reserved bits of `word`. -/
theorem fields_of_masked {v word : Word} (masked : v &&& 0xFFFFE0FF#32 = word) :
    rsvField v = rsvField word ∧ opField v = opField word := by
  subst masked
  have rsv : (0xFFFFE0FF#32).extractLsb' 13 19 = BitVec.allOnes 19 := rfl
  have op : (0xFFFFE0FF#32).extractLsb' 0 8 = BitVec.allOnes 8 := rfl
  simp only [rsvField, opField, BitVec.extractLsb'_and, rsv, op, BitVec.and_allOnes, and_self]

/-- The row of a command selects its word. -/
theorem row_selects_encode {i : Instr} (wf : i.wellFormed = true) : i.row.selects (encode i) = true := by
  cases i with
  | rotr n => revert n; decide
  | shr n => revert n; decide
  | _ => exact (fixedRow_selects_iff _ _ _).2 rfl

/-- A row selects the words of its commands alone. -/
theorem row_selects_iff (i : Instr) (v : Word) :
    i.row.selects v = true ↔ ∃ j, decode v = .ok j ∧ j.row = i.row := by
  constructor
  · intro selected
    cases i with
    | rotr n =>
      obtain ⟨masked, nonzero⟩ : v &&& 0xFFFFE0FF#32 = 0x14#32 ∧ amountField v ≠ 0#5 := by
        simpa [Instr.row, OpcodeRow.selects] using selected
      obtain ⟨rsv, op⟩ := fields_of_masked masked
      exact ⟨.rotr (amountField v), decode_of_fields (by simpa [Instr.wellFormed]) rsv rfl op, rfl⟩
    | shr n =>
      have masked : v &&& 0xFFFFE0FF#32 = 0x15#32 := by
        simpa [Instr.row, OpcodeRow.selects] using selected
      obtain ⟨rsv, op⟩ := fields_of_masked masked
      exact ⟨.shr (amountField v), decode_of_fields rfl rsv rfl op, rfl⟩
    | _ =>
      rw [(fixedRow_selects_iff _ _ _).1 selected]
      exact ⟨_, decode_encode rfl, rfl⟩
  · rintro ⟨j, accepted, same⟩
    rw [← same, ← encode_of_decode accepted]
    exact row_selects_encode (wellFormed_of_decode accepted)

/-- Settles O4: both rows are the row of the one command the decoder reads. -/
theorem opcodeRowsDisjoint : Obligations.OpcodeRowsDisjoint := by
  intro v r q rIn qIn rSelects qSelects
  obtain ⟨i, rfl⟩ := (mem_opcodeTable_iff r).1 rIn
  obtain ⟨k, rfl⟩ := (mem_opcodeTable_iff q).1 qIn
  obtain ⟨j, accepted, row⟩ := (row_selects_iff i v).1 rSelects
  obtain ⟨j', accepted', row'⟩ := (row_selects_iff k v).1 qSelects
  cases accepted.symm.trans accepted'
  exact row.symm.trans row'

/-! ### The legal words (R86) -/

/-- The word of a well-formed command is legal. -/
theorem legal_encode {i : Instr} (wf : i.wellFormed = true) : legal (encode i) = true := by
  obtain ⟨rsv, amount, op⟩ := encode_fields i
  rw [legal, rsv, amount, op]
  cases i with
  | rotr n => exact wf
  | _ => rfl

/-- The commands without an amount. -/
def plainCommands : List Instr :=
  [.nop, .init, .expand, .loadwork, .round, .feedfwd, .compress, .block, .add, .and, .xor, .not,
    .ch, .maj, .bsig0, .bsig1, .ssig0, .ssig1]

theorem plainCommands_noAmount : ∀ i ∈ plainCommands, i.wellFormed = true ∧ i.amount = 0#5 := by decide

/-- `Legal(v)` field by field: a command without an amount, ROTR by an amount other than 0, or SHR (R86). -/
theorem legal_iff_fields (v : Word) :
    legal v = true ↔ rsvField v = 0#19 ∧
      (((opField v).toNat ∈ plainCommands.map (·.opcode.toNat) ∧ amountField v = 0#5) ∨
       ((opField v).toNat = 0x14 ∧ amountField v ≠ 0#5) ∨ (opField v).toNat = 0x15) := by
  by_cases rsv : rsvField v = 0#19
  · by_cases zero : amountField v = 0#5
    · simp [legal, plainCommands, Instr.opcode, rsv, zero]
      omega
    · simp [legal, plainCommands, Instr.opcode, rsv, zero]
      omega
  · simp [legal, rsv]

/-- A legal word is the word of a command (R86). -/
theorem decode_of_legal {v : Word} (isLegal : legal v = true) : ∃ i, decode v = .ok i := by
  obtain ⟨rsv, ⟨plain, zero⟩ | ⟨rotr, nonzero⟩ | shr⟩ := (legal_iff_fields v).1 isLegal
  · obtain ⟨i, mem, op⟩ := List.mem_map.1 plain
    obtain ⟨wf, amount⟩ := plainCommands_noAmount i mem
    exact ⟨i, decode_of_fields wf rsv (zero.trans amount.symm) (BitVec.eq_of_toNat_eq op.symm)⟩
  · exact ⟨.rotr (amountField v),
      decode_of_fields (by simpa [Instr.wellFormed]) rsv rfl (BitVec.eq_of_toNat_eq rotr)⟩
  · exact ⟨.shr (amountField v), decode_of_fields rfl rsv rfl (BitVec.eq_of_toNat_eq shr)⟩

theorem legal_iff_decode (v : Word) : legal v = true ↔ ∃ i, decode v = .ok i := by
  refine ⟨decode_of_legal, fun ⟨i, accepted⟩ => ?_⟩
  rw [← encode_of_decode accepted]
  exact legal_encode (wellFormed_of_decode accepted)

/-- A word is legal exactly when a row of the opcode map selects it. -/
theorem legal_iff_selected (v : Word) : legal v = true ↔ ∃ r ∈ opcodeTable, r.selects v = true := by
  rw [legal_iff_decode]
  constructor
  · rintro ⟨i, accepted⟩
    exact ⟨i.row, (mem_opcodeTable_iff _).2 ⟨i, rfl⟩, (row_selects_iff i v).2 ⟨i, accepted, rfl⟩⟩
  · rintro ⟨r, mem, selects⟩
    obtain ⟨i, rfl⟩ := (mem_opcodeTable_iff r).1 mem
    obtain ⟨j, accepted, -⟩ := (row_selects_iff i v).1 selects
    exact ⟨j, accepted⟩

/-- The illegal words, field by field (R86). -/
theorem legal_eq_false_iff (v : Word) :
    legal v = false ↔
      rsvField v ≠ 0#19 ∨ (0x08 ≤ (opField v).toNat ∧ (opField v).toNat ≤ 0x0F) ∨ 0x1C ≤ (opField v).toNat ∨
      (amountField v ≠ 0#5 ∧ opField v ≠ 0x14#8 ∧ opField v ≠ 0x15#8) ∨
      (amountField v = 0#5 ∧ opField v = 0x14#8) := by
  have rotr : opField v = 0x14#8 ↔ (opField v).toNat = 0x14 := BitVec.toNat_inj.symm
  have shr : opField v = 0x15#8 ↔ (opField v).toNat = 0x15 := BitVec.toNat_inj.symm
  rw [← Bool.not_eq_true, legal_iff_fields]
  by_cases rsv : rsvField v = 0#19
  · by_cases zero : amountField v = 0#5
    · simp [plainCommands, Instr.opcode, rsv, zero, rotr, shr]
      omega
    · simp [rsv, zero, rotr, shr]
      omega
  · simp [rsv]

end Sys2Proof
end

section
/-! PROOFS. Issue of a command (R85 to R87) and its completion by the engine's step (R88, R89). -/

namespace Sys2Proof.Machine

/-! ### Issue (R85 to R87) -/

/-- An illegal word is rejected (R86). -/
theorem issue_of_illegal {v : Word} (illegal : legal v = false) (e : Engine) : e.issue v = e.raise .errIllegal := by
  simp [Engine.issue, illegal]

/-- ROUND is rejected at RCNT = 64 (R87). -/
theorem issue_outOfSequence {e : Engine} {v : Word} (isLegal : legal v = true) (round : opField v = 0x04)
    (last : e.rcnt = 64) : e.issue v = e.raise .errSeq := by
  simp [Engine.issue, isLegal, round, last]

/-- Every other legal word is accepted (R85). -/
theorem issue_of_legal {e : Engine} {v : Word} (isLegal : legal v = true)
    (inSequence : ¬(opField v = 0x04 ∧ e.rcnt = 64)) :
    e.issue v = { e with pending := some v, status := statusBusy e.status } := by
  simp only [Engine.issue, isLegal, inSequence, Bool.not_true, Bool.false_eq_true, if_false]

/-- While idle a write to CMD issues the word. -/
theorem portWrite_cmd {e : Engine} (idle : e.busy = false) (v : Word) : e.portWrite 0x50 v = e.issue v :=
  portWrite_of_idle idle 0x50 v

/-- Settles O3: the legal words by the command the decoder reads, the illegal ones by their fields, and their effect
by `issue_of_illegal`. -/
theorem illegalWordsAndTheirEffect : Obligations.IllegalWordsAndTheirEffect := by
  refine fun v => ⟨legal_iff_selected v, legal_iff_decode v, legal_eq_false_iff v, fun e idle illegal => ?_⟩
  rw [portWrite_cmd idle, issue_of_illegal illegal]
  rfl

theorem opcode_eq_round_iff (i : Instr) : i.opcode = 0x04 ↔ i = .round := by
  cases i <;> simp [Instr.opcode]

/-- The one legal word with ROUND's op code is ROUND's word. -/
theorem eq_round_of_legal {v : Word} (isLegal : legal v = true) (round : opField v = 0x04) : v = 0x00000004#32 := by
  obtain ⟨i, accepted⟩ := (legal_iff_decode v).1 isLegal
  obtain ⟨-, -, op, -⟩ := decode_fields accepted
  obtain rfl := (opcode_eq_round_iff i).1 (op.symm.trans round)
  exact (encode_of_decode accepted).symm

/-- Settles O5: while busy by `portWrite_of_busy`, while idle by the three outcomes of issue. -/
theorem commandIssue : Obligations.CommandIssue := by
  refine fun e v => ⟨fun busy => portWrite_of_busy busy (by decide) v, fun idle => ?_⟩
  rw [portWrite_cmd idle]
  refine ⟨fun isLegal other => ?accepted, ?outOfSequence, fun illegal => issue_of_illegal illegal e⟩
  case accepted =>
    exact issue_of_legal isLegal fun ⟨round, last⟩ => other ⟨eq_round_of_legal isLegal round, last⟩
  case outOfSequence =>
    rintro rfl last
    exact ⟨rfl, issue_outOfSequence rfl rfl last⟩

/-! ### Completion (R88, R89) -/

/-- Settles O6: the step is the command's meaning after the turn is taken off the order (`step_of_command`), and
settles its outcome. -/
theorem stepRunsDecodedCommand : Obligations.StepRunsDecodedCommand := by
  intro s v i running turn pending reads
  rw [step_of_command running turn pending reads]
  refine ⟨fun t run => ?next, fun f fault => ?fault⟩
  case next =>
    have run : exec i s.afterTurn = .next t := run
    rw [run]
    rfl
  case fault =>
    have fault : exec i s.afterTurn = .fault f := fault
    rw [fault]
    rfl

/-- A pending command is one the decoder reads, and ROUND is pending only with RCNT below 64. -/
theorem Engine.Inv.pending_decodes {e : Engine} (inv : e.Inv) {v : Word} (pending : e.pending = some v) :
    ∃ i, decode v = .ok i ∧ (i = .round → e.rcnt.toNat < 64) := by
  obtain ⟨isLegal, inRange⟩ := inv.pendingAccepted v pending
  obtain ⟨i, accepted⟩ := (legal_iff_decode v).1 isLegal
  obtain ⟨-, -, op, -⟩ := decode_fields accepted
  exact ⟨i, accepted, fun round => inRange (op.trans ((opcode_eq_round_iff i).2 round))⟩

/-- With no order left, a turn takes nothing off it. -/
theorem afterTurn_of_no_turns {s : State} (order : s.turns = []) : s.afterTurn = s := by
  cases s
  cases order
  rfl

/-- Settles O46: a busy machine has a command pending, which the engine's step runs; a command in its range completes
or faults on its reads (`commandOutcomes`). -/
theorem pendingCommandCompletes : Obligations.PendingCommandCompletes := by
  intro s inv running order busy
  obtain ⟨v, pending⟩ := Option.ne_none_iff_exists'.1 (inv.engine.busyIffPending.1 busy)
  obtain ⟨i, reads, inRange⟩ := inv.engine.pending_decodes pending
  have turn : s.nextTurn = .engine := by simp [State.nextTurn, order, pending]
  have stepped := step_of_command running turn pending reads
  rw [afterTurn_of_no_turns order] at stepped
  obtain ⟨outcome, -⟩ := commandOutcomes i s
  obtain ⟨t, run⟩ | ⟨strict, r, empty, fault⟩ | ⟨round, ge, -⟩ := outcome
  · obtain ⟨none, idle, -⟩ := completionClearsBusyOnly i s t run
    exact ⟨t, by rw [stepped, run]; rfl, .inl ⟨idle, none⟩⟩
  · exact ⟨_, by rw [stepped, fault]; rfl, .inr ⟨strict, r, empty, rfl⟩⟩
  · exact absurd (inRange round) (Nat.not_lt.2 ge)

end Sys2Proof.Machine
end

section
/-! PROOFS. The word functions of the ALU (R100 to R109) in the library's terms and bit by bit. -/

namespace Sys2Proof.Machine

/-! ### The rotation and the shift (R100, R101) -/

/-- The rotation is the library's, by every amount below 32. -/
theorem rotr32_eq_rotateRight (x : Word) {n : Nat} (lt : n < 32) : rotr32 x n = x.rotateRight n := by
  rw [BitVec.rotateRight_def, Nat.mod_eq_of_lt lt]
  rfl

/-- The bits that leave the low end come back in at the high end (R100). -/
theorem rotr32_getLsbD (x : Word) {n i : Nat} (lt : n < 32) (inWord : i < 32) :
    (rotr32 x n).getLsbD i = x.getLsbD ((i + n) % 32) := by
  rw [rotr32_eq_rotateRight x lt, BitVec.getLsbD_rotateRight, Nat.mod_eq_of_lt lt]
  by_cases shifted : i < 32 - n
  · have place : (i + n) % 32 = n + i := by omega
    simp [shifted, place]
  · have place : (i + n) % 32 = i - (32 - n) := by omega
    simp [shifted, inWord, place]

/-- Zeros are shifted in at the high end (R101). -/
theorem shr32_getLsbD (x : Word) (n i : Nat) :
    (shr32 x n).getLsbD i = (decide (i + n ≤ 31) && x.getLsbD (i + n)) := by
  rw [shr32, BitVec.getLsbD_ushiftRight, Nat.add_comm n]
  by_cases inWord : i + n ≤ 31
  · simp [inWord]
  · simp [inWord, BitVec.getLsbD_of_ge x (i + n) (by omega)]

/-- Settles O11: the rotation and the shift by their bits (`rotr32_getLsbD`, `shr32_getLsbD`). -/
theorem rotateAndShiftBits : Obligations.RotateAndShiftBits := fun x n =>
  ⟨fun _ le => ⟨rfl, fun _ => rotr32_getLsbD x (by omega)⟩, fun _ i _ => shr32_getLsbD x n i,
    BitVec.ushiftRight_zero x⟩

/-! ### The complement, the choice and the majority (R102, R103, R109) -/

theorem not32_eq_complement (x : Word) : not32 x = ~~~x := BitVec.xor_allOnes

/-- The choice takes each bit from `y` where `x` is 1, from `z` where it is 0 (R102). -/
theorem ch_getLsbD (x y z : Word) {i : Nat} (inWord : i < 32) :
    (ch x y z).getLsbD i = if x.getLsbD i then y.getLsbD i else z.getLsbD i := by
  rw [ch, not32_eq_complement, BitVec.getLsbD_xor, BitVec.getLsbD_and, BitVec.getLsbD_and, BitVec.getLsbD_not]
  cases x.getLsbD i <;> simp [inWord]

/-- Where two of the three bits agree, they are the majority (R103). -/
theorem maj_getLsbD (x y z : Word) (i : Nat) :
    (maj x y z).getLsbD i = if x.getLsbD i = y.getLsbD i then x.getLsbD i else z.getLsbD i := by
  simp only [maj, BitVec.getLsbD_xor, BitVec.getLsbD_and]
  cases x.getLsbD i <;> cases y.getLsbD i <;> simp

/-! ### The sigma functions (R104 to R107) -/

theorem bsig0_eq_rotations (x : Word) :
    bsig0 x = x.rotateRight 2 ^^^ x.rotateRight 13 ^^^ x.rotateRight 22 := by
  simp [bsig0, rotr32_eq_rotateRight]

theorem bsig1_eq_rotations (x : Word) :
    bsig1 x = x.rotateRight 6 ^^^ x.rotateRight 11 ^^^ x.rotateRight 25 := by
  simp [bsig1, rotr32_eq_rotateRight]

theorem ssig0_eq_rotations (x : Word) : ssig0 x = x.rotateRight 7 ^^^ x.rotateRight 18 ^^^ (x >>> 3) := by
  simp [ssig0, rotr32_eq_rotateRight, shr32]

theorem ssig1_eq_rotations (x : Word) : ssig1 x = x.rotateRight 17 ^^^ x.rotateRight 19 ^^^ (x >>> 10) := by
  simp [ssig1, rotr32_eq_rotateRight, shr32]

end Sys2Proof.Machine
end

section
/-! PROOFS. The ALU commands (R110 to R122): their results, their completion and fault, their frame, and what they
depend on. -/

namespace Sys2Proof.Machine

/-! ### Results, completion and fault (R21, R88, R110 to R121) -/

/-- Every command, ROUND in its range, completes on its `Execute`'s engine, or raises `UndefinedRead` on a register
it reads (R21, R88). -/
theorem completesOn_executed {i : Instr} {s : State} (inRange : i = .round → s.engine.rcnt.toNat < 64) :
    completesOn i s (commandReads s.engine i) (s.engine.executed i) := by
  rw [completesOn, exec_eq_complete inRange, complete_eq_afterReads]
  refine ⟨afterReads_written _ _ _, fun missing => ?_⟩
  obtain ⟨r, mem, empty, out⟩ := afterReads_unwritten s (s.completedWith (s.engine.executed i)) _ missing
  refine ⟨r, mem, empty, ?_⟩
  rw [out]
  cases s.strict
  · exact .inr ⟨_, rfl, rfl⟩
  · exact .inl rfl

/-- Settles O12: each result is what `Execute` leaves (`completesOn_executed`), the complement in the library's
terms. -/
theorem addAndXorNot : Obligations.AddAndXorNot := by
  refine ⟨fun s => ?_, rfl, rfl, rfl, rfl⟩
  rw [← not32_eq_complement, ← BitVec.add_def]
  exact ⟨completesOn_executed nofun, completesOn_executed nofun, completesOn_executed nofun,
    completesOn_executed nofun⟩

/-- Settles O13: the results by `completesOn_executed`, the words by their fields (`ofNat_eq_encode`), and ROTR's
word with n = 0 as every illegal word (`issue_of_illegal`). -/
theorem rotateAndShiftCommands : Obligations.RotateAndShiftCommands := by
  have illegal : legal 0x00000014#32 = false := by decide
  refine ⟨fun s n => ⟨fun _ => ?rotr, completesOn_executed nofun⟩,
    fun n => ⟨(ofNat_eq_encode (.rotr n)).symm, (ofNat_eq_encode (.shr n)).symm⟩, illegal, fun e idle => ?rotr0⟩
  case rotr =>
    rw [← rotr32_eq_rotateRight _ n.isLt]
    exact completesOn_executed nofun
  case rotr0 =>
    rw [portWrite_cmd idle, issue_of_illegal illegal]
    rfl

/-- Settles O14: the results by `completesOn_executed`, their bits by `ch_getLsbD` and `maj_getLsbD`. -/
theorem chooseAndMajority : Obligations.ChooseAndMajority := by
  refine ⟨?_, rfl, rfl⟩
  rintro s x y z rfl rfl rfl
  exact ⟨_, _, completesOn_executed nofun, completesOn_executed nofun, rfl, rfl, fun _ => ch_getLsbD _ _ _,
    fun i _ => maj_getLsbD _ _ _ i⟩

/-- Settles O15: the results by `completesOn_executed`, in the library's rotations. -/
theorem sigmaCommands : Obligations.SigmaCommands := by
  refine ⟨?_, rfl, rfl, rfl, rfl⟩
  rintro s x rfl
  rw [← bsig0_eq_rotations, ← bsig1_eq_rotations, ← ssig0_eq_rotations, ← ssig1_eq_rotations]
  exact ⟨completesOn_executed nofun, completesOn_executed nofun, completesOn_executed nofun,
    completesOn_executed nofun⟩

/-! ### Frame and independence (R122) -/

/-- What the command `i` leaves in RES, given the operand registers; the other registers are at their reset. -/
def aluResult (i : Instr) (x y z : DataWord) : DataWord :=
  (Engine.executed { Engine.reset with opx := x, opy := y, opz := z } i).res

/-- An ALU command writes RES alone, and what it writes depends on OPX, OPY and OPZ alone. -/
theorem executed_of_alu {i : Instr} (alu : i ∈ aluCommands) (e : Engine) :
    e.executed i = { e with res := aluResult i e.opx e.opy e.opz } := by
  cases i with
  | nop | init | expand | loadwork | round | feedfwd | compress | block => simp [aluCommands] at alu
  | _ => rfl

/-- An ALU command reads operand registers alone, the same ones in every engine. -/
theorem commandReads_of_alu {i : Instr} (alu : i ∈ aluCommands) :
    ∃ reads ⊆ [DataReg.opx, .opy, .opz], ∀ e, commandReads e i = reads := by
  cases i with
  | nop | init | expand | loadwork | round | feedfwd | compress | block => simp [aluCommands] at alu
  | _ => exact ⟨_, by decide, fun _ => rfl⟩

theorem ne_round_of_alu {i : Instr} (alu : i ∈ aluCommands) : i ≠ .round := by
  rintro rfl
  simp [aluCommands] at alu

/-- Whether an ALU command completes depends on the operand registers and on the machine being strict alone. -/
theorem exec_completes_of_sameOperands {i : Instr} (alu : i ∈ aluCommands) {s s' t : State}
    (run : exec i s = .next t) (strict : s'.strict = s.strict)
    (same : ∀ r ∈ [DataReg.opx, .opy, .opz], s'.engine.get r = s.engine.get r) : ∃ t', exec i s' = .next t' := by
  obtain ⟨reads, operands, readsOf⟩ := commandReads_of_alu alu
  obtain ⟨-, ⟨written, -⟩ | ⟨-, -, -, lenient, -⟩⟩ := exec_next run
  · obtain ⟨completes, -⟩ := completesOn_executed (s := s') (absurd · (ne_round_of_alu alu))
    refine ⟨_, completes fun r read => ?_⟩
    rw [readsOf] at written read
    rw [same r (operands read)]
    exact written r read
  · exact exec_completes_of_lenient (strict.trans lenient) (absurd · (ne_round_of_alu alu))

/-- A write to RES and the completion leave every other data register. -/
theorem get_finish_of_res_written (e : Engine) (d : DataWord) {r : DataReg} (other : r ≠ .res) :
    (Engine.finish { e with res := d }).get r = e.get r := by
  cases r with
  | res => contradiction
  | _ => rfl

/-- Settles O16: outside the engine by `exec_next_frame`, inside it by `executed_of_alu`, which also says that equal
operands give an equal RES. -/
theorem aluTouchesOnlyRes : Obligations.AluTouchesOnlyRes := by
  intro i alu s t run
  obtain ⟨host, turns, held, draws, unit, strict, faults⟩ := exec_next_frame run
  have engine := exec_next_engine run
  rw [executed_of_alu alu] at engine
  rw [engine]
  refine ⟨fun r => get_finish_of_res_written _ _, rfl, host, turns, held, draws, unit, strict, faults,
    fun s' opx opy opz sameStrict => ?_⟩
  obtain ⟨t', run'⟩ := exec_completes_of_sameOperands (s' := s') alu run sameStrict
    (by simp [Engine.get, opx, opy, opz])
  refine ⟨t', run', ?_⟩
  rw [exec_next_engine run', executed_of_alu alu, opx, opy, opz]
  rfl

end Sys2Proof.Machine
end

section
/-! PROOFS. The layout and the length of a padded message (R141 to R144), and the words of a block (R147). -/

namespace Sys2Proof.Machine

/-! ### The layout (R141 to R144) -/

theorem pad_length (m : List Byte) {z : Nat} (fewest : z < 64) (fills : (m.length + 9 + z) % 64 = 0) :
    (pad m).length = m.length + 9 + z := by
  simp [pad_eq m fewest fills]
  omega

/-- (55 - L) mod 64 zero bytes are fewer than a block, and with them the padded message fills its last block. -/
theorem zeroBytes_fill {z length : Nat} (count : (z : Int) = (55 - (length : Int)) % 64) :
    z < 64 ∧ (length + 9 + z) % 64 = 0 := by
  omega

/-- Settles O48: the zero bytes that `pad_eq` asks for are (55 - L) mod 64 in number, and the rest is their
arithmetic. -/
theorem paddingLayout : Obligations.PaddingLayout := by
  intro m
  have count : (((55 - (m.length : Int)) % 64).toNat : Int) = (55 - (m.length : Int)) % 64 :=
    Int.toNat_of_nonneg (Int.emod_nonneg _ (by decide))
  obtain ⟨fewest, fills⟩ := zeroBytes_fill count
  have length := pad_length m fewest fills
  refine ⟨_, count, pad_eq m fewest fills, length, pad_length_mod m, by omega, ?_⟩
  rw [blockCount, length]
  omega

/-! ### The words of a block (R11, R147) -/

/-- A byte put after `x` is the lowest byte of the number they make. -/
theorem toNat_append_byte {n : Nat} (x : BitVec n) (b : Byte) :
    (x ++ b).toNat = x.toNat * 2 ^ 8 + b.toNat := by
  rw [BitVec.toNat_append, ← Nat.shiftLeft_add_eq_or_of_lt b.isLt, Nat.shiftLeft_eq]

theorem be32_toNat (b0 b1 b2 b3 : Byte) :
    (be32 b0 b1 b2 b3).toNat
      = b0.toNat * 2 ^ 24 + b1.toNat * 2 ^ 16 + b2.toNat * 2 ^ 8 + b3.toNat := by
  rw [be32, toNat_append_byte, toNat_append_byte, toNat_append_byte]
  omega

/-- Word t of a whole block is made of the block's own bytes: none of them is the default of `getD`. -/
theorem blockWords_getElem {b : List Byte} (whole : b.length = 64) {t : Nat} (lt : t < 16) :
    (blockWords b)[t] = be32 b[4 * t] b[4 * t + 1] b[4 * t + 2] b[4 * t + 3] := by
  simp (disch := omega) only [blockWords, Vector.getElem_ofFn, List.getD_eq_getElem]

/-- Settles O51: each word is `be32` of its four bytes. -/
theorem blockWordsBigEndian : Obligations.BlockWordsBigEndian := by
  intro b whole t lt
  rw [blockWords_getElem whole lt, be32_toNat]

end Sys2Proof.Machine
end

section
/-! PROOFS. The message schedule (R160 to R162): the recurrence of the expansion, and EXPAND made twice. -/

namespace Sys2Proof.Machine

/-! ### The schedule words (R160, R161) -/

theorem expand_block (m : Vector Word 16) (t : Nat) (lt : t < 16) : (expand m)[t] = m[t] :=
  expandSteps_block m 48 _ t lt

/-- Word t is the sum over earlier words of the completed schedule: the loop reads "from final values" (R161). -/
theorem expand_rest (m : Vector Word 16) (t : Nat) (ge : 16 ≤ t) (lt : t < 64) :
    (expand m)[t] = scheduleWord (expand m) t ge lt := by
  obtain ⟨n, rfl⟩ := Nat.exists_eq_add_of_le' ge
  have earlier (k : Nat) (reached : k < n + 16) :
      (expand m)[k] = (expandSteps m n (by omega))[k] := expandSteps_final m (by omega) _ k reached
  calc (expand m)[n + 16]
    _ = (expandSteps m (n + 1) (by omega))[n + 16] := expandSteps_final m (by omega) _ _ (by omega)
    _ = scheduleWord (expandSteps m n (by omega)) (n + 16) ge lt := Vector.getElem_set_self _
    _ = scheduleWord (expand m) (n + 16) ge lt := by
      simp (disch := omega) only [scheduleWord, earlier]

/-- Settles O19: the schedule is `expand` of the block words, by `expand_block` and `expand_rest`, and the completion
is that of every command (`completesOn_executed`). -/
theorem expandComputesSchedule : Obligations.ExpandComputesSchedule := by
  refine ⟨rfl, fun s => ⟨expand (blockPart s.engine.w), fun t lt => ?_, expand_rest _, completesOn_executed nofun⟩⟩
  rw [expand_block _ t lt, blockPart_getElem]

/-! ### EXPAND twice (R162) -/

/-- The expansion keeps its own input. -/
theorem blockPart_expandedFile (w : Vector DataWord 64) (u : Vector Word 64) :
    blockPart (expandedFile w u) = blockPart w := by
  ext1 t lt
  simp [expandedFile_block, lt]

theorem expandedFile_expandedFile (w : Vector DataWord 64) (u v : Vector Word 64) :
    expandedFile (expandedFile w v) u = expandedFile w u := by
  ext1 t lt
  by_cases block : t < 16
  · simp only [expandedFile_block, block]
  · simp only [expandedFile_rest, Nat.not_lt.1 block]

theorem Engine.finish_finish (e : Engine) : e.finish.finish = e.finish := by
  simp [Engine.finish, statusIdle, BitVec.and_assoc]

/-- EXPAND on the engine that a completed EXPAND leaves writes what stands there. -/
theorem executed_expand_finish (e : Engine) :
    (e.executed .expand).finish.executed .expand = (e.executed .expand).finish := by
  simp only [Engine.executed, Engine.finish, blockPart_expandedFile, expandedFile_expandedFile]

/-- No completed command takes a register's value (R21). -/
theorem exec_next_written {i : Instr} {s t : State} (run : exec i s = .next t) {r : DataReg}
    (written : (s.engine.get r).written = true) : (t.engine.get r).written = true := by
  rw [exec_next_engine run]
  exact executed_written i written

theorem completedWith_eq_self {s : State} {e : Engine} (same : e.finish = s.engine) : s.completedWith e = s :=
  congrArg (fun x => { s with engine := x }) same

/-- What a second EXPAND leaves of the engine is what the first left. -/
theorem expand_again_engine {s t : State} (run : exec .expand s = .next t) :
    (t.engine.executed .expand).finish = t.engine := by
  rw [exec_next_engine run, executed_expand_finish, Engine.finish_finish]

/-- Where the block words hold values a second EXPAND changes nothing. -/
theorem expand_again_of_written {s t : State} (run : exec .expand s = .next t)
    (written : ∀ r ∈ blockRegs, (s.engine.get r).written = true) : exec .expand t = .next t := by
  obtain ⟨completes, -⟩ := completesOn_executed (i := .expand) (s := t) nofun
  rw [completes fun r mem => exec_next_written run (written r mem),
    completedWith_eq_self (expand_again_engine run)]

/-- Where EXPAND completed it completes again: the block words hold values, or the machine is not strict. -/
theorem expand_again_completes {s t : State} (run : exec .expand s = .next t) :
    ∃ t', exec .expand t = .next t' := by
  obtain ⟨-, -, -, -, -, strict, -⟩ := exec_next_frame run
  obtain ⟨-, ⟨written, -⟩ | ⟨-, -, -, lenient, -⟩⟩ := exec_next run
  · exact ⟨t, expand_again_of_written run written⟩
  · exact exec_completes_of_lenient (strict.trans lenient) nofun

/-- Settles O20: the frame is that of the hash and control commands (`hashCommandsFrame`), and a second EXPAND goes by
`expand_again_completes` and `expand_again_engine`. -/
theorem expandFrameAndIdempotence : Obligations.ExpandFrameAndIdempotence := by
  intro s t run
  obtain ⟨-, -, -, -, -, -, -, opx, opy, opz, res, block, -, h, workAndRcnt⟩ :=
    hashCommandsFrame .expand (by simp) s t run
  obtain ⟨work, rcnt⟩ := workAndRcnt nofun nofun nofun nofun
  obtain ⟨t', again⟩ := expand_again_completes run
  have sameEngine : t'.engine = t.engine := (exec_next_engine again).trans (expand_again_engine run)
  exact ⟨block, h nofun nofun nofun nofun, work, rcnt, opx, opy, opz, res, ⟨t', again, sameEngine⟩,
    expand_again_of_written run⟩

end Sys2Proof.Machine
end

section
/-! PROOFS. The compression (R170 to R175): the results of its commands, and COMPRESS and BLOCK as the sequences of
commands they stand for. -/

namespace Sys2Proof.Machine

/-! ### LOADWORK, ROUND and FEEDFWD (R170 to R172) -/

theorem held_eq_ofFn {n : Nat} (v : Vector Word n) : held v = Vector.ofFn fun i : Fin n => .of v[i] := by
  ext1 i lt
  simp

/-- Settles O21: the completion is that of every command (`completesOn_executed`), the file written out. -/
theorem loadworkCopiesHash : Obligations.LoadworkCopiesHash := by
  refine ⟨rfl, fun s => ?_⟩
  have work : held (valuesOf s.engine.h) = Vector.ofFn fun i : Fin 8 => .of s.engine.h[i].value := by
    simp [held_eq_ofFn]
  rw [← work]
  exact completesOn_executed nofun

/-- ROUND leaves round t's step of the working registers and RCNT = t + 1, where RCNT = t < 64. -/
theorem executed_round {e : Engine} {t : Nat} (lt : t < 64) (rcnt : e.rcnt.toNat = t) :
    e.executed .round = { e with
      work := held (roundStep Config.roundConstants[t] e.w[t].value (valuesOf e.work))
      rcnt := BitVec.ofNat 7 (t + 1) } := by
  subst rcnt
  have next : e.rcnt + 1 = BitVec.ofNat 7 (e.rcnt.toNat + 1) := by simp [BitVec.ofNat_add]
  simp only [Engine.executed, fin64_ofNat lt, next, Fin.getElem_fin]

theorem commandReads_round {e : Engine} {t : Nat} (lt : t < 64) (rcnt : e.rcnt.toNat = t) :
    commandReads e .round = workRegs ++ [.w ⟨t, lt⟩] := by
  rw [commandReads, rcnt, fin64_ofNat lt]

/-- The round step on named words, as a file written (R171). -/
theorem held_roundStep (k wt a b c d e f g h : Word) :
    held (roundStep k wt #v[a, b, c, d, e, f, g, h]) =
      let T1 := h + bsig1 e + ch e f g + k + wt
      let T2 := bsig0 a + maj a b c
      #v[.of (T1 + T2), .of a, .of b, .of c, .of (d + T1), .of e, .of f, .of g] := by
  simp [held, roundStep, add32]

/-- Settles O22: the step by `executed_round` and `held_roundStep`, and the rejection by
`issue_outOfSequence`. -/
theorem roundComputesStep : Obligations.RoundComputesStep := by
  refine ⟨rfl, fun s t lt a b c d e f g h rcnt words => ⟨_, _, rfl, rfl, ?step⟩, fun e idle last => ?rejected⟩
  case step =>
    have completes := completesOn_executed (i := .round) (s := s) fun _ => rcnt ▸ lt
    rw [commandReads_round lt rcnt, executed_round lt rcnt, valuesOf, words, held_roundStep] at completes
    exact completes
  case rejected =>
    rw [portWrite_cmd idle, issue_outOfSequence (by decide) (by decide) last]
    rfl

/-- The feed-forward as a file written, sum by sum (R172). -/
theorem held_feedForward (u v : Vector Word 8) :
    held (feedForward u v) = Vector.ofFn fun i : Fin 8 => .of (u[i] + v[i]) := by
  simp [held_eq_ofFn, feedForward, add32]

/-- Settles O23: the completion is that of every command, the sums by `held_feedForward`. -/
theorem feedfwdAddsWork : Obligations.FeedfwdAddsWork := by
  refine ⟨rfl, fun s => ?_⟩
  have sums : held (feedForward (valuesOf s.engine.h) (valuesOf s.engine.work))
      = Vector.ofFn fun i : Fin 8 => .of (s.engine.h[i].value + s.engine.work[i].value) := by
    simp [held_feedForward]
  rw [← sums]
  exact completesOn_executed nofun

/-! ### COMPRESS (R173) -/

/-- The working registers after `n` rounds, for every `n`: `rounds`, which has no more than 64 of them, and `s`
beyond. -/
def roundValues (w : Vector Word 64) (s : Vector Word 8) (n : Nat) : Vector Word 8 :=
  if le : n ≤ 64 then rounds w s n le else s

theorem roundValues_eq_rounds (w : Vector Word 64) (s : Vector Word 8) {n : Nat} (le : n ≤ 64) :
    roundValues w s n = rounds w s n le := dif_pos le

/-- Settles O24: the rounds are `roundValues`, and the completion is that of every command. -/
theorem compressRunsAllRounds : Obligations.CompressRunsAllRounds := by
  refine ⟨rfl, fun s =>
    ⟨roundValues (valuesOf s.engine.w) (valuesOf s.engine.h), rfl, fun t lt => ?round, ?completes⟩⟩
  case round =>
    rw [roundValues_eq_rounds _ _ (Nat.succ_le_of_lt lt), roundValues_eq_rounds _ _ (Nat.le_of_lt lt), rounds_succ,
      valuesOf_getElem]
  case completes =>
    have sums : held (compressFn (valuesOf s.engine.w) (valuesOf s.engine.h)) = Vector.ofFn fun i : Fin 8 =>
        .of (s.engine.h[i].value + (rounds64 (valuesOf s.engine.w) (valuesOf s.engine.h))[i]) := by
      simp [compressFn, held_feedForward]
    rw [roundValues_eq_rounds _ _ (Nat.le_refl 64), ← rounds64, ← sums]
    exact completesOn_executed nofun

/-! ### Commands one after another (R21, R88) -/

/-- The completion changes no data register (R88). -/
@[simp] theorem Engine.get_finish (e : Engine) (r : DataReg) : e.finish.get r = e.get r := by
  cases r <;> rfl

/-- From `s` one or more commands, of outcome `o`, complete and leave the engine `e`; where `clean` holds, as where
every register they read holds a value, they change nothing outside it. -/
def LeadsTo (clean : Prop) (s : State) (o : Host.Outcome State Fault Refusal) (e : Engine) : Prop :=
  ∃ t, o = .next t ∧ t.engine = e ∧ t.strict = s.strict ∧ (clean → t = { s with engine := e })

/-- One command leads to its `Execute`'s engine, finished, where it finds values or the machine is not strict. -/
theorem exec_leadsTo {clean : Prop} {i : Instr} {s : State} (goesOn : s.strict = false ∨ clean)
    (inRange : i = .round → s.engine.rcnt.toNat < 64)
    (written : clean → ∀ r ∈ commandReads s.engine i, (s.engine.get r).written = true) :
    LeadsTo clean s (exec i s) (s.engine.executed i).finish := by
  have completes (isClean : clean) : exec i s = .next (s.completedWith (s.engine.executed i)) :=
    (completesOn_executed inRange).1 (written isClean)
  obtain ⟨t, run⟩ : ∃ t, exec i s = .next t := goesOn.elim
    (exec_completes_of_lenient · inRange) fun isClean => ⟨_, completes isClean⟩
  obtain ⟨-, -, -, -, -, strict, -⟩ := exec_next_frame run
  exact ⟨t, run, exec_next_engine run, strict, fun isClean =>
    Host.Outcome.next.inj (run.symm.trans (completes isClean))⟩

/-- Commands followed by commands. -/
theorem LeadsTo.andThen {clean : Prop} {s : State} {o : Host.Outcome State Fault Refusal} {e e' : Engine}
    {k : State → Host.Outcome State Fault Refusal} (first : LeadsTo clean s o e)
    (second : ∀ t, t.engine = e → t.strict = s.strict → LeadsTo clean t (k t) e') :
    LeadsTo clean s (andThen o k) e' := by
  obtain ⟨t, rfl, engine, strict, same⟩ := first
  obtain ⟨t', run', engine', strict', same'⟩ := second t engine strict
  exact ⟨t', run', engine', strict'.trans strict, fun isClean => by rw [same' isClean, same isClean]⟩

/-- Commands that lead to one engine lead to one state where they find values. -/
theorem LeadsTo.agree {clean : Prop} {s : State} {o o' : Host.Outcome State Fault Refusal} {e : Engine}
    (one : LeadsTo clean s o e) (other : LeadsTo clean s o' e) :
    ∃ t t', o = .next t ∧ o' = .next t' ∧ t'.engine = t.engine ∧ (clean → t' = t) := by
  obtain ⟨t, run, engine, -, same⟩ := one
  obtain ⟨t', run', engine', -, same'⟩ := other
  exact ⟨t, t', run, run', engine'.trans engine.symm, fun isClean => (same' isClean).trans (same isClean).symm⟩

/-- One command, but ROUND, on a state from which it goes on (log 26). -/
theorem exec_leadsTo_of_goesOn {i : Instr} {s : State} (goesOn : s.goesOn (commandReads s.engine i))
    (notRound : i ≠ .round) :
    LeadsTo (∀ r ∈ commandReads s.engine i, (s.engine.get r).written = true) s (exec i s)
      (s.engine.executed i).finish :=
  exec_leadsTo goesOn (absurd · notRound) id

/-! ### COMPRESS command by command (R173) -/

/-- The engine after LOADWORK and `n` ROUNDs from the engine `e`. -/
def Engine.afterRounds (e : Engine) (n : Nat) (le : n ≤ 64) : Engine :=
  Engine.finish { e with work := held (rounds (valuesOf e.w) (valuesOf e.h) n le), rcnt := BitVec.ofNat 7 n }

theorem afterRounds_rcnt (e : Engine) {n : Nat} (le : n ≤ 64) : (e.afterRounds n le).rcnt.toNat = n := by
  simp only [Engine.afterRounds, Engine.finish_rcnt, BitVec.toNat_ofNat]
  omega

/-- Where H and W hold values, so do H, WA..WH and W after LOADWORK and rounds. -/
theorem afterRounds_written {e : Engine} (written : ∀ r ∈ hRegs ++ wRegs, (e.get r).written = true) {n : Nat}
    (le : n ≤ 64) : ∀ r ∈ hRegs ++ workRegs ++ wRegs, ((e.afterRounds n le).get r).written = true := by
  intro r mem
  rw [Engine.afterRounds, Engine.get_finish]
  cases r with
  | h i => exact written (.h i) (by simp [mem_hRegs])
  | w t => exact written (.w t) (by simp [mem_wRegs])
  | work i => simp [Engine.get]
  | _ => simp [mem_hRegs, mem_workRegs, mem_wRegs] at mem

/-- Whatever RCNT is, what ROUND reads is among H, WA..WH and W. -/
theorem commandReads_round_subset (e : Engine) : commandReads e .round ⊆ hRegs ++ workRegs ++ wRegs := by
  intro r mem
  obtain work | word := List.mem_append.1 mem
  · exact List.mem_append_left _ (List.mem_append_right _ work)
  · exact List.mem_append_right _ ((mem_wRegs r).2 ⟨_, List.mem_singleton.1 word⟩)

/-- LOADWORK starts the rounds. -/
theorem executed_loadwork_finish (e : Engine) :
    (e.executed .loadwork).finish = e.afterRounds 0 (Nat.zero_le 64) := rfl

/-- ROUND makes the next round. -/
theorem executed_round_afterRounds (e : Engine) {n : Nat} (lt : n < 64) :
    ((e.afterRounds n (Nat.le_of_lt lt)).executed .round).finish = e.afterRounds (n + 1) lt := by
  rw [executed_round lt (afterRounds_rcnt e _)]
  simp [Engine.afterRounds, Engine.finish, statusIdle, BitVec.and_assoc, rounds_succ]

/-- FEEDFWD after the last round leaves what COMPRESS leaves. -/
theorem executed_feedfwd_afterRounds (e : Engine) :
    ((e.afterRounds 64 (Nat.le_refl 64)).executed .feedfwd).finish = (e.executed .compress).finish := by
  simp [Engine.afterRounds, Engine.executed, Engine.finish, Engine.compressed, statusIdle, BitVec.and_assoc,
    compressFn, rounds64]

/-- After LOADWORK and `k` ROUNDs, the rest of the 64. -/
theorem repeatRound_leadsTo {e : Engine} {clean : Prop}
    (written : clean → ∀ r ∈ hRegs ++ wRegs, (e.get r).written = true) (n : Nat) :
    ∀ {k : Nat} (rest : k + n = 64) {s : State}, s.strict = false ∨ clean →
      s.engine = e.afterRounds k (by omega) →
      LeadsTo clean s (repeatCommand .round n s) (e.afterRounds 64 (Nat.le_refl 64)) := by
  induction n with
  | zero =>
    intro k rest s _ engine
    obtain rfl : k = 64 := rest
    exact ⟨s, rfl, engine, rfl, fun _ => by rw [← engine]⟩
  | succ n ih =>
    intro k rest s goesOn engine
    have lt : k < 64 := by omega
    have rcnt : s.engine.rcnt.toNat = k := by rw [engine, afterRounds_rcnt]
    have first : LeadsTo clean s (exec .round s) (s.engine.executed .round).finish := by
      refine exec_leadsTo goesOn (fun _ => rcnt ▸ lt) fun isClean r mem => ?_
      rw [engine]
      exact afterRounds_written (written isClean) _ r (commandReads_round_subset _ mem)
    rw [engine, executed_round_afterRounds e lt] at first
    exact first.andThen fun t next strict => ih (k := k + 1) (by omega) (strict ▸ goesOn) next

/-- Settles O25: LOADWORK, the rounds (`repeatRound_leadsTo`) and FEEDFWD lead to the engine that COMPRESS leads
to. -/
theorem compressIsStepwise : Obligations.CompressIsStepwise := by
  intro s goesOn
  refine (exec_leadsTo_of_goesOn (i := .compress) goesOn nofun).agree ?_
  have start := exec_leadsTo (i := .loadwork) goesOn nofun fun written r mem =>
    written r (List.mem_append_left _ mem)
  rw [executed_loadwork_finish] at start
  refine start.andThen fun s1 engine1 strict1 => ?_
  have toRounds := repeatRound_leadsTo (e := s.engine) id 64 (Nat.zero_add 64) (strict1 ▸ goesOn) engine1
  refine toRounds.andThen fun s2 engine2 strict2 => ?_
  rw [← executed_feedfwd_afterRounds, ← engine2]
  refine exec_leadsTo (strict2 ▸ strict1 ▸ goesOn) nofun fun written r mem => ?_
  rw [engine2]
  exact afterRounds_written written _ r (List.mem_append_left _ mem)

/-! ### BLOCK (R174) -/

/-- The bits of an expanded schedule memory are the schedule's. -/
theorem valuesOf_expandedFile (w : Vector DataWord 64) :
    valuesOf (expandedFile w (expand (blockPart w))) = expand (blockPart w) := by
  ext1 t lt
  by_cases block : t < 16
  · simp [expandedFile_block, expand_block, block]
  · simp [expandedFile_rest, Nat.not_lt.1 block]

/-- COMPRESS after EXPAND leaves what BLOCK leaves. -/
theorem executed_expand_compress (e : Engine) :
    ((e.executed .expand).finish.executed .compress).finish = (e.executed .block).finish := by
  simp [Engine.executed, Engine.finish, Engine.compressed, statusIdle, BitVec.and_assoc, valuesOf_expandedFile]

/-- Where the block words hold values, so do all of W after EXPAND. -/
theorem executed_expand_w_written {e : Engine} (written : ∀ r ∈ blockRegs, (e.get r).written = true) (t : Fin 64) :
    ((e.executed .expand).get (.w t)).written = true := by
  by_cases block : t.val < 16
  · exact executed_written .expand (written (.w t) ((mem_blockRegs _).2 ⟨⟨t, block⟩, rfl⟩))
  · simp [Engine.get, Engine.executed, expandedFile_rest, Nat.not_lt.1 block]

/-- Where the registers BLOCK reads hold values, so do those COMPRESS reads after EXPAND. -/
theorem executed_expand_written {e : Engine} (written : ∀ r ∈ blockRegs ++ hRegs, (e.get r).written = true) :
    ∀ r ∈ hRegs ++ wRegs, ((e.executed .expand).finish.get r).written = true := by
  obtain ⟨block, hash⟩ := List.forall_mem_append.1 written
  refine List.forall_mem_append.2 ⟨fun r mem => ?_, fun r mem => ?_⟩
  · rw [Engine.get_finish]
    exact executed_written .expand (hash r mem)
  · obtain ⟨t, rfl⟩ := (mem_wRegs r).1 mem
    rw [Engine.get_finish]
    exact executed_expand_w_written block t

/-- Settles O26: the fault is that of every command (`completesOn_executed`), and EXPAND then COMPRESS lead to the
engine that BLOCK leads to. -/
theorem blockIsExpandThenCompress : Obligations.BlockIsExpandThenCompress := by
  refine ⟨rfl, fun s => (completesOn_executed (i := .block) nofun).2, fun s goesOn => ?_⟩
  refine (exec_leadsTo_of_goesOn (i := .block) goesOn nofun).agree ?_
  have start := exec_leadsTo (i := .expand) goesOn nofun fun written r mem =>
    written r (List.mem_append_left _ mem)
  refine start.andThen fun t engine strict => ?_
  rw [← executed_expand_compress, ← engine]
  refine exec_leadsTo (strict ▸ goesOn) nofun fun written => ?_
  rw [engine]
  exact executed_expand_written written

/-! ### The pure functions (R175) -/

/-- What a command that goes on leaves in H. -/
theorem exec_h_of_goesOn {i : Instr} {s : State} (goesOn : s.goesOn (commandReads s.engine i))
    (notRound : i ≠ .round) :
    ∃ t, exec i s = .next t ∧ t.engine.h = (s.engine.executed i).h := by
  obtain ⟨t, run, engine, -, -⟩ := exec_leadsTo_of_goesOn goesOn notRound
  exact ⟨t, run, by rw [engine, Engine.finish_h]⟩

/-- Settles O27: H is what COMPRESS and BLOCK leave of it (`exec_h_of_goesOn`). -/
theorem pureCompressionFunctions : Obligations.PureCompressionFunctions :=
  ⟨fun _ goesOn => exec_h_of_goesOn (i := .compress) goesOn nofun,
    fun _ goesOn => exec_h_of_goesOn (i := .block) goesOn nofun⟩

end Sys2Proof.Machine
end

section
/-! PROOFS. The control commands (R190, R191), the blocks of a message chained through H (R193), what the hash depends
on (R196, R199), and the digest and its rendering (R194, R195). -/

namespace Sys2Proof.Machine

/-! ### NOP and INIT (R190, R191) -/

/-- Settles O17: NOP reads nothing and its `Execute` leaves the engine as it is (`completesOn_executed`); its word is
accepted by `issue_of_legal`. -/
theorem nopOnlyCompletes : Obligations.NopOnlyCompletes := by
  refine ⟨rfl, fun e idle => ?accepted, fun s => (completesOn_executed (i := .nop) nofun).1 nofun⟩
  rw [portWrite_cmd idle]
  exact issue_of_legal (by decide) fun ⟨round, _⟩ => absurd round (by decide)

/-- INIT completes on every state: it reads no data register. -/
theorem exec_init (s : State) : exec .init s = .next (s.completedWith (s.engine.executed .init)) :=
  (completesOn_executed (i := .init) nofun).1 nofun

/-- The initial hash value written to H, word by word (R37). -/
theorem held_initialHash : held Config.initialHash =
    #v[.of 0x6a09e667#32, .of 0xbb67ae85#32, .of 0x3c6ef372#32, .of 0xa54ff53a#32,
      .of 0x510e527f#32, .of 0x9b05688c#32, .of 0x1f83d9ab#32, .of 0x5be0cd19#32] := by
  simp [held, Config.initialHash]

/-- Settles O18: INIT completes (`exec_init`) with the words of IV (`held_initialHash`). -/
theorem initLoadsInitialHash : Obligations.InitLoadsInitialHash := by
  refine ⟨rfl, fun s => ?_⟩
  rw [← held_initialHash]
  exact exec_init s

/-! ### The load of a block (R63, R92) -/

/-- W[t] for t in 0..15, the register of a block word. -/
def blockReg (t : Fin 16) : DataReg := .w (t.castLE (by decide))

theorem mem_blockRegs_iff (r : DataReg) : r ∈ blockRegs ↔ ∃ t, r = blockReg t := mem_blockRegs r

theorem blockReg_injective {t q : Fin 16} (same : blockReg q = blockReg t) : q = t := by
  simpa [blockReg] using same

/-- One of the 16 writes of LDBLK, while idle. -/
theorem portWrite_blockReg {e : Engine} (idle : e.busy = false) (t : Fin 16) (v : Word) :
    e.portWrite (BitVec.ofNat 8 t.val) v = e.set (blockReg t) v :=
  portWrite_data idle (portMap_w (t := t.val) (by omega) (by simp; omega)) rfl v

/-- The writes of LDBLK to the block words `ts`, in order. -/
def Engine.loadWords (e : Engine) (m : Vector Word 16) (ts : List (Fin 16)) : Engine :=
  ts.foldl (fun e (t : Fin 16) => e.portWrite (BitVec.ofNat 8 t.val) m[t]) e

theorem loadBlock_eq_loadWords (e : Engine) (m : Vector Word 16) :
    e.loadBlock m = e.loadWords m (List.finRange 16) := rfl

/-- While idle the writes of LDBLK keep the engine idle and H as it was, and leave the words they wrote. -/
theorem loadWords_effect {e : Engine} (idle : e.busy = false) (m : Vector Word 16) (ts : List (Fin 16)) :
    (e.loadWords m ts).busy = false ∧ (e.loadWords m ts).h = e.h ∧
    ∀ t ∈ ts, (e.loadWords m ts).get (blockReg t) = .of m[t] := by
  induction ts using List.reverseRecOn with
  | nil => exact ⟨idle, rfl, nofun⟩
  | append_singleton ts t ih =>
    obtain ⟨idle', hash, words⟩ := ih
    have last : e.loadWords m (ts ++ [t]) = (e.loadWords m ts).set (blockReg t) m[t] := by
      rw [← portWrite_blockReg idle']
      exact List.foldl_concat ..
    rw [last]
    refine ⟨by rw [Engine.set_busy, idle'], hash, fun q mem => ?_⟩
    by_cases same : q = t
    · subst same
      exact Engine.get_set_same ..
    · rw [Engine.get_set_other _ _ (mt blockReg_injective same)]
      exact words q (by simpa [same] using mem)

section
variable {e : Engine} (idle : e.busy = false) (m : Vector Word 16)
include idle

theorem loadBlock_h : (e.loadBlock m).h = e.h := by
  obtain ⟨-, hash, -⟩ := loadWords_effect idle m (List.finRange 16)
  rw [loadBlock_eq_loadWords]
  exact hash

/-- LDBLK gives each block word its value. -/
theorem loadBlock_get (t : Fin 16) : (e.loadBlock m).get (blockReg t) = .of m[t] := by
  obtain ⟨-, -, words⟩ := loadWords_effect idle m (List.finRange 16)
  rw [loadBlock_eq_loadWords]
  exact words t (List.mem_finRange t)

theorem loadBlock_written : ∀ r ∈ blockRegs, ((e.loadBlock m).get r).written = true := by
  intro r mem
  obtain ⟨t, rfl⟩ := (mem_blockRegs_iff r).1 mem
  rw [loadBlock_get idle, of_written]

/-- The block words after LDBLK are the block's. -/
theorem blockPart_loadBlock : blockPart (e.loadBlock m).w = m := by
  ext1 t lt
  have word : (e.loadBlock m).w[t] = .of m[t] := loadBlock_get idle m ⟨t, lt⟩
  rw [blockPart_getElem, word, of_value]

end

/-! ### Blocks chained (R193) -/

/-- BLOCK, on a machine where it goes on, leaves in H the words of the pure `Block` (R175), in work those of its
rounds, in W those of its schedule, and RCNT = 64. -/
theorem exec_block_of_goesOn {s : State} (goesOn : s.goesOn (blockRegs ++ hRegs)) :
    ∃ t, exec .block s = .next t ∧ t.engine.busy = false ∧
      t.engine.h = held (blockFn (blockPart s.engine.w) (valuesOf s.engine.h)) ∧
      t.engine.work = held (rounds64 (expand (blockPart s.engine.w)) (valuesOf s.engine.h)) ∧
      valuesOf t.engine.w = expand (blockPart s.engine.w) ∧ t.engine.rcnt = 64 := by
  obtain ⟨t, run, engine, -, -⟩ := exec_leadsTo_of_goesOn (i := .block) goesOn nofun
  refine ⟨t, run, ?_⟩
  rw [engine]
  exact ⟨Engine.finish_busy _, rfl, rfl, valuesOf_expandedFile _, rfl⟩

/-- Where all of H was written, reads of H go on. -/
theorem goesOn_hRegs_of_held {s : State} {v : Vector Word 8} (hash : s.engine.h = held v) : s.goesOn hRegs := by
  refine .inr fun r mem => ?_
  obtain ⟨i, rfl⟩ := (mem_hRegs r).1 mem
  simp [Engine.get, hash]

/-- The machine goes on with reads of two lists of registers where it does with those of each (log 26). -/
theorem goesOn_append {s : State} {rs qs : List DataReg} (one : s.goesOn rs) (other : s.goesOn qs) :
    s.goesOn (rs ++ qs) := by
  obtain lenient | written := one
  · exact .inl lenient
  obtain lenient | written' := other
  · exact .inl lenient
  · exact .inr (List.forall_mem_append.2 ⟨written, written'⟩)

/-- The machine with the block `m` loaded goes on with BLOCK where it goes on with reads of H. -/
theorem goesOn_loadBlock {s : State} (idle : s.engine.busy = false) (goesOn : s.goesOn hRegs) (m : Vector Word 16) :
    State.goesOn { s with engine := s.engine.loadBlock m } (blockRegs ++ hRegs) := by
  refine goesOn_append (.inr (loadBlock_written idle m)) (goesOn.imp id fun written r mem => ?_)
  obtain ⟨i, rfl⟩ := (mem_hRegs r).1 mem
  have kept : (s.engine.loadBlock m).get (.h i) = s.engine.get (.h i) := by simp [Engine.get, loadBlock_h idle]
  rw [kept]
  exact written _ mem

/-- Settles O28, by induction on the blocks: LDBLK gives BLOCK its words (`blockPart_loadBlock`) and keeps H, and BLOCK
leaves the next H, every word of it a value, and the engine idle. -/
theorem blocksChainInOrder : Obligations.BlocksChainInOrder := by
  intro blocks
  induction blocks with
  | nil => exact fun s idle _ => ⟨s, rfl, idle, rfl⟩
  | cons m ms ih =>
    intro s idle goesOn
    obtain ⟨t, run, idle', hash, -⟩ := exec_block_of_goesOn (goesOn_loadBlock idle goesOn m)
    obtain ⟨u, rest, idleAtEnd, chained⟩ := ih t idle' (goesOn_hRegs_of_held hash)
    refine ⟨u, by rw [runBlocks, run, andThen_next, rest], idleAtEnd, ?_⟩
    rw [chained, hash, valuesOf_held, blockPart_loadBlock idle, loadBlock_h idle]
    rfl

/-! ### What the hash depends on (R196, R199) -/

/-- INIT then BLOCK leave words made of the block words and IV alone. -/
theorem init_block_of_goesOn {s : State} (goesOn : s.goesOn blockRegs) :
    ∃ t, andThen (exec .init s) (exec .block) = .next t ∧
      t.engine.h = held (blockFn (blockPart s.engine.w) Config.initialHash) ∧
      t.engine.work = held (rounds64 (expand (blockPart s.engine.w)) Config.initialHash) ∧
      valuesOf t.engine.w = expand (blockPart s.engine.w) ∧ t.engine.rcnt = 64 := by
  have block : (s.completedWith (s.engine.executed .init)).goesOn blockRegs := by
    refine goesOn.imp id fun written r mem => ?_
    obtain ⟨t, rfl⟩ := (mem_blockRegs r).1 mem
    exact written _ mem
  have hash : (s.completedWith (s.engine.executed .init)).engine.h = held Config.initialHash := rfl
  obtain ⟨t, run, -, h, work, w, rcnt⟩ := exec_block_of_goesOn (goesOn_append block (goesOn_hRegs_of_held hash))
  rw [hash, valuesOf_held] at h work
  exact ⟨t, by rw [exec_init, andThen_next, run], h, work, w, rcnt⟩

/-- Settles O29: both machines end with the words that `init_block_of_goesOn` makes of the same block. -/
theorem hashDependsOnBlockAlone : Obligations.HashDependsOnBlockAlone := by
  intro s s' goesOn goesOn' agree
  obtain ⟨t, run, h, work, w, rcnt⟩ := init_block_of_goesOn goesOn
  obtain ⟨t', run', h', work', w', rcnt'⟩ := init_block_of_goesOn goesOn'
  have same : blockPart s'.engine.w = blockPart s.engine.w := by
    ext1 t lt
    rw [blockPart_getElem, blockPart_getElem, agree t lt]
  rw [same] at h' work' w'
  exact ⟨t, t', run, run', h.trans h'.symm, work.trans work'.symm, w.trans w'.symm, rcnt.trans rcnt'.symm⟩

/-! ### The digest (R194) -/

/-- Pieces of one length put one after another are as long as they are together. -/
theorem length_flatten_map {α β : Type} {f : α → List β} {n : Nat} (size : ∀ a, (f a).length = n) (l : List α) :
    ((l.map f).flatten).length = n * l.length := by
  simp [size, Function.comp_def, Nat.mul_comm]

/-- Pieces of one length put one after another: place `j` of piece `i`. -/
theorem getElem?_flatten_map {α β : Type} {f : α → List β} {n : Nat} (size : ∀ a, (f a).length = n) {j : Nat}
    (inPiece : j < n) (l : List α) (i : Nat) (lt : i < l.length) :
    ((l.map f).flatten)[n * i + j]? = (f l[i])[j]? := by
  induction l generalizing i with
  | nil => cases lt
  | cons a l ih =>
    rw [List.map_cons, List.flatten_cons]
    cases i with
    | zero =>
      rw [Nat.mul_zero, Nat.zero_add]
      exact List.getElem?_append_left (by rw [size]; exact inPiece)
    | succ i =>
      have place : n * (i + 1) + j - n = n * i + j := by rw [Nat.mul_succ]; omega
      rw [List.getElem?_append_right (by rw [size, Nat.mul_succ]; omega), size, place]
      exact ih i (Nat.lt_of_succ_lt_succ lt)

theorem be32Bytes_length (w : Word) : (be32Bytes w).length = 4 := rfl

/-- The bytes of a word, the high one first (R11, R194). -/
theorem be32Bytes_getElem? (w : Word) {j : Nat} (lt : j < 4) :
    (be32Bytes w)[j]? = some (w.extractLsb' (24 - 8 * j) 8) := by
  interval_cases j <;> rfl

theorem digest_length (h : Vector Word 8) : (digest h).length = 32 := by
  rw [digest, length_flatten_map be32Bytes_length, Vector.length_toList]

/-- Settles O52: the digest is made of the four bytes of each word (`getElem?_flatten_map`). -/
theorem digestBytes : Obligations.DigestBytes := by
  refine fun h => ⟨digest_length h, fun i lt j inWord => ?_⟩
  rw [digest, getElem?_flatten_map be32Bytes_length inWord _ i (by simpa using lt), Vector.getElem_toList,
    be32Bytes_getElem? _ inWord]

/-! ### The rendering (R195, R196) -/

/-- The digit of a nibble, by its code: from '0' on below ten, from 'a' on above. -/
theorem hexDigit_eq_ofNat (n : BitVec 4) :
    hexDigit n = Char.ofNat (if n.toNat < 10 then 0x30 + n.toNat else 0x61 + (n.toNat - 10)) := by
  revert n
  decide

theorem hexDigit_range (n : BitVec 4) :
    ('0' ≤ hexDigit n ∧ hexDigit n ≤ '9') ∨ ('a' ≤ hexDigit n ∧ hexDigit n ≤ 'f') := by
  revert n
  decide

theorem highNibble_toNat (b : Byte) : (b.extractLsb' 4 4).toNat = b.toNat / 16 := by
  have lt := b.isLt
  rw [BitVec.extractLsb'_toNat, Nat.shiftRight_eq_div_pow]
  omega

theorem lowNibble_toNat (b : Byte) : (b.extractLsb' 0 4).toNat = b.toNat % 16 := BitVec.extractLsb'_toNat ..

/-- The two digits of a byte (R195). -/
def byteDigits (b : Byte) : List Char := [hexDigit (b.extractLsb' 4 4), hexDigit (b.extractLsb' 0 4)]

theorem byteDigits_length (b : Byte) : (byteDigits b).length = 2 := rfl

theorem hex_eq (d : List Byte) : hex d = (d.map byteDigits).flatten := rfl

theorem hex_length (d : List Byte) : (hex d).length = 2 * d.length := by
  rw [hex_eq, length_flatten_map byteDigits_length]

/-- Every character of a rendering is a hex digit of some nibble. -/
theorem mem_hex {d : List Byte} {c : Char} (mem : c ∈ hex d) : ∃ n, c = hexDigit n := by
  simp only [hex_eq, byteDigits, List.mem_flatten, List.mem_map] at mem
  obtain ⟨_, ⟨b, -, rfl⟩, digit⟩ := mem
  obtain rfl | low := List.mem_cons.1 digit
  · exact ⟨_, rfl⟩
  · exact ⟨_, List.mem_singleton.1 low⟩

/-- Settles O53: the digits by their place (`getElem?_flatten_map`) and code (`hexDigit_eq_ofNat`), and the hash of a
message as the rendering of 32 bytes. -/
theorem hashRendering : Obligations.HashRendering := by
  refine ⟨fun d => ⟨hex_length d, fun i lt => ⟨?high, ?low⟩⟩, fun m => ⟨rfl, ?length, fun c mem => ?range⟩⟩
  case high =>
    have digit := getElem?_flatten_map byteDigits_length (j := 0) (by decide) d i lt
    rw [hex_eq, ← highNibble_toNat, ← hexDigit_eq_ofNat]
    exact digit
  case low =>
    have digit := getElem?_flatten_map byteDigits_length (j := 1) (by decide) d i lt
    rw [hex_eq, ← lowNibble_toNat, ← hexDigit_eq_ofNat]
    exact digit
  case length => rw [hashOf, hex_length, digest_length]
  case range =>
    obtain ⟨n, rfl⟩ := mem_hex mem
    exact hexDigit_range n

end Sys2Proof.Machine
end

section
/-! PROOFS. Errors and faults (60_exceptions.md): a port write raises at most one error (R240, R249), no step records
InvariantViolation (R246), and the instances on a platform share nothing (R256). -/

namespace Sys2Proof.Machine

/-! ### The errors of a port write (R240, R249) -/

@[simp] theorem Engine.set_error (e : Engine) (r : DataReg) (v : Word) (b : ErrorBit) :
    (e.set r v).error b = e.error b := by
  simp [Engine.error]

/-- Acceptance sets BUSY and leaves the error bits (R85). -/
theorem statusBusy_errorBit (st : BitVec 5) (b : ErrorBit) :
    (statusBusy st).getLsbD b.index = st.getLsbD b.index := by
  cases b <;> simp [statusBusy, ErrorBit.index]

/-- Issue raises one error, or accepts the command and leaves the error bits (R85 to R87). -/
theorem issue_error (e : Engine) (v : Word) :
    (∃ b, e.issue v = e.raise b) ∨ ∀ b, (e.issue v).error b = e.error b := by
  obtain ⟨-, eq⟩ | ⟨-, -, -, eq⟩ | ⟨-, -, eq⟩ := issue_cases e v <;> rw [eq]
  · exact .inl ⟨_, rfl⟩
  · exact .inl ⟨_, rfl⟩
  · exact .inr (statusBusy_errorBit e.status)

/-- Settles O35, by the cases of a port write: one dropped raises its error alone, a data register's write leaves
STATUS, and a command's is its issue (`issue_error`). -/
theorem oneErrorPerWrite : Obligations.OneErrorPerWrite := by
  intro e a v notStatus
  obtain ⟨status, -⟩ | ⟨-, -, eq⟩ | ⟨-, eq⟩ | ⟨-, r, -, -, eq⟩ | ⟨-, -, eq⟩ := portWrite_cases e a v
  · exact absurd ((portMap_eq_status_iff a).1 status) notStatus
  all_goals rw [eq]
  · exact .inl ⟨.errBusy, rfl⟩
  · exact .inl ⟨.errAddr, rfl⟩
  · exact .inr (e.set_error r v)
  · exact issue_error e v

/-! ### InvariantViolation (R246) -/

/-- The outcome raises no InvariantViolation, and the state it goes on to has none recorded. -/
def RaisesNoViolation (o : Host.Outcome State Fault Refusal) : Prop :=
  match o with
  | .next t => Fault.invariantViolation ∉ t.faults
  | .fault f => f ≠ .invariantViolation
  | .refused _ => True

/-- A read raises UndefinedRead alone (R21). -/
theorem afterReads_raisesNoViolation (s : State) {t : State} (reads : List DataReg)
    (clean : Fault.invariantViolation ∉ t.faults) : RaisesNoViolation (s.afterReads reads t) := by
  obtain ⟨-, eq⟩ | ⟨r, -, -, eq⟩ := afterReads_cases s t reads <;> rw [eq]
  · exact clean
  · split
    · exact nofun
    · simpa [RaisesNoViolation] using clean

/-- A command raises InvariantViolation only as ROUND with RCNT outside 0..63 (R246). -/
theorem exec_raisesNoViolation {i : Instr} {s : State} (inRange : i = .round → s.engine.rcnt.toNat < 64)
    (clean : Fault.invariantViolation ∉ s.faults) : RaisesNoViolation (exec i s) := by
  rw [exec_eq_complete inRange, complete_eq_afterReads]
  exact afterReads_raisesNoViolation s _ clean

/-- An access of the host raises UndefinedRead or RefusedAccess alone (R62, R67, R273). -/
theorem hostAccess_raisesNoViolation (x : Access) {s : State} (clean : Fault.invariantViolation ∉ s.faults) :
    RaisesNoViolation (hostAccess x s) := by
  unfold hostAccess
  split
  · exact nofun
  obtain ⟨a, eq⟩ | ⟨a, v, eq⟩ | eq := freeAccess_cases x <;> rw [eq]
  · unfold hostRead
    split
    · exact clean
    · exact clean
    · exact afterReads_raisesNoViolation s _ clean
  · exact clean
  · exact nofun

/-- The machine records the fault of an outcome and no other. -/
theorem settle_raisesNoViolation {s : State} {o : Host.Outcome State Fault Refusal}
    (clean : Fault.invariantViolation ∉ s.faults) (raisesNone : RaisesNoViolation o) :
    RaisesNoViolation (s.settle (.ofOutcome o)) := by
  cases o with
  | next t => exact raisesNone
  | fault f => simpa [AgentOutcome.ofOutcome, State.settle, RaisesNoViolation] using ⟨clean, raisesNone.symm⟩
  | refused q => trivial

theorem hostStep_raisesNoViolation {s : State} (clean : Fault.invariantViolation ∉ s.faults) :
    RaisesNoViolation (s.settle (hostStep s)) := by
  unfold hostStep
  split
  · exact clean
  · exact settle_raisesNoViolation clean (hostAccess_raisesNoViolation _ clean)

/-- The engine that meets the invariant runs a pending command that decodes, ROUND in its range (R85 to R87). -/
theorem engineStep_raisesNoViolation {s : State} (inv : s.engine.Inv)
    (clean : Fault.invariantViolation ∉ s.faults) : RaisesNoViolation (s.settle (engineStep s)) := by
  cases pending : s.engine.pending with
  | none =>
    rw [(engineStep_eq_stuck_iff s).2 pending]
    exact clean
  | some v =>
    obtain ⟨i, reads, inRange⟩ := inv.pending_decodes pending
    rw [engineStep_of_command pending reads]
    exact settle_raisesNoViolation clean (exec_raisesNoViolation inRange clean)

/-- A machine that no fault has stopped has no InvariantViolation recorded (R44). -/
theorem no_violation_of_running {s : State} (running : s.stopFault = none) :
    Fault.invariantViolation ∉ s.faults := by
  intro recorded
  obtain ⟨f, -, stopped⟩ := stopFault_some_of_mem recorded rfl
  simp [stopped] at running

theorem agentStep_raisesNoViolation (turn : Turn) {s : State} (inv : s.engine.Inv) (running : s.stopFault = none) :
    RaisesNoViolation (s.settle (agentStep turn s)) := by
  have clean := no_violation_of_running running
  obtain ⟨reset, hold, release⟩ := agentStep_platform running
  cases turn
  case host =>
    rw [agentStep_host running]
    exact hostStep_raisesNoViolation clean
  case engine =>
    rw [agentStep_engine running]
    exact engineStep_raisesNoViolation inv clean
  case reset => rwa [reset]
  case holdReset => rwa [hold]
  case releaseReset => rwa [release]

/-- Settles O45: a machine that steps has none recorded, and its agent's step raises none
(`agentStep_raisesNoViolation`). -/
theorem invariantViolationUnreached : Obligations.InvariantViolationUnreached := by
  intro s t inv run
  obtain ⟨running, -⟩ := step_cases run
  have raisesNone := agentStep_raisesNoViolation s.nextTurn (s := s.afterTurn) inv.engine running
  rwa [← step_of_running running, run] at raisesNone

/-! ### Several instances (R256) -/

/-- A step replaces the state of the one stepped, in the platform's list. -/
theorem stepInstance_of_next {p : List State} {i : Nat} {s t : State} (found : p[i]? = some s)
    (run : step s = .next t) : stepInstance i p = p.set i t := by
  simp [stepInstance, found, run]

/-- A step leaves the platform's list, or replaces its entry `i`. -/
theorem stepInstance_cases (i : Nat) (p : List State) :
    stepInstance i p = p ∨ ∃ t, stepInstance i p = p.set i t := by
  unfold stepInstance
  split
  · exact .inl rfl
  · split
    · exact .inr ⟨_, rfl⟩
    · exact .inl rfl
    · exact .inl rfl

/-- Settles O47: at most the entry stepped is replaced in the list (`stepInstance_cases`). -/
theorem instancesShareNothing : Obligations.InstancesShareNothing := by
  refine fun p i j ne => ⟨?others, ?count, fun s t found run => ?stepped⟩
  case others =>
    obtain eq | ⟨t, eq⟩ := stepInstance_cases i p <;> rw [eq]
    exact List.getElem?_set_ne ne
  case count =>
    obtain eq | ⟨t, eq⟩ := stepInstance_cases i p <;> rw [eq]
    exact List.length_set
  case stepped =>
    obtain ⟨lt, -⟩ := List.getElem?_eq_some_iff.1 found
    rw [stepInstance_of_next found run, List.getElem?_set_self lt]

end Sys2Proof.Machine
end

section
/-! PROOFS. Reset and the port while reset is held (70_reset_and_hazards.md): what the platform's turns leave of the
machine (R271, R273, R287), and the access refused meanwhile (R273). -/

namespace Sys2Proof.Machine

/-- The step is that of the agent whose turn it is, where that agent has a next state (R71). -/
theorem step_of_agentStep {s t : State} (running : s.stopFault = none)
    (made : agentStep s.nextTurn s.afterTurn = .next t) : step s = .next t := by
  rw [step_of_running running, made, State.settle]

/-- While the platform holds reset, every access of the host is refused (R273). -/
theorem hostAccess_of_held {s : State} (x : Access) (held : s.resetHeld = true) :
    hostAccess x s = .fault .refusedAccess := by
  rw [hostAccess, if_pos held]

/-- Settles O41: the step is the platform's reset (`agentStep_platform`), which acts on the engine alone. -/
theorem resetLeavesHost : Obligations.ResetLeavesHost := by
  intro s running turn
  obtain ⟨reset, -, -⟩ := agentStep_platform (s := s.afterTurn) running
  exact step_of_agentStep running (turn ▸ reset)

/-- Settles O42: holding and releasing are the platform's steps (`agentStep_platform`), and the access made meanwhile
is refused (`hostAccess_of_held`), so that its fault stands recorded in the state after the turn. -/
theorem heldResetRefusesAccess : Obligations.HeldResetRefusesAccess := by
  refine ⟨fun s running turn => ?hold, fun s running turn => ?release, fun s x pos running turn held next => ?access⟩
  case hold =>
    obtain ⟨-, hold, -⟩ := agentStep_platform (s := s.afterTurn) running
    exact step_of_agentStep running (turn ▸ hold)
  case release =>
    obtain ⟨-, -, release⟩ := agentStep_platform (s := s.afterTurn) running
    exact step_of_agentStep running (turn ▸ release)
  case access =>
    have refused := hostAccess_of_held (s := s.afterTurn.hostAt pos) x held
    rw [step_of_hostAccess running turn next, refused]
    rfl

end Sys2Proof.Machine
end
